-- ==== Sys2Proof/Word.lean ====
section
/-!
DEFINITION. The words of the block: the stored element (spec R8), the command word (spec R47) and the
four command inputs sampled at a rising clock edge (spec R23, R101).
-/

namespace Sys2Proof

/-- One stored element. "Element width: 8 bits (a byte), not a parameter" (00_scope.md R8). -/
abbrev Byte := BitVec 8

/-- The command word `CMD = R P G D[7:0]` of one cycle (30_encoding.md R47): one format, one length, 11 bits. -/
abbrev CmdWord := BitVec 11

/-- The command inputs of one cycle, sampled at the rising edge that ends it (10_state.md R23).
"The model takes the inputs of each cycle as booleans and a byte" (60_exceptions.md R101), so an unknown or
floating level has no term here. `clk` is no field: one application of the step is one rising edge. -/
structure Inputs where
  /-- `rst`: driven by the initializer; 1 is the source's `init()`. -/
  rst : Bool
  /-- `put_en`: driven by the producer. -/
  putEn : Bool
  /-- `get_en`: driven by the consumer. -/
  getEn : Bool
  /-- `put_data`: driven by the producer; ignored unless `rst = 0` and `put_en = 1`. -/
  putData : Byte
deriving DecidableEq, Repr

end Sys2Proof
end

