-- ==== Sys2Proof/Config.lean ====
section
/-!
DEFINITION. What is fixed when a block is built (its capacity, spec R6 to R9), and the one value the spec leaves
open in every cycle (`get_data` without a successful get, spec R70).
-/

namespace Sys2Proof

/-- The block's only parameter, `N` (LOG2_CAP), with the spec's requirement `N >= 1` carried beside it
(00_scope.md R6): a block with `N = 0` cannot be written down. No upper bound is set. -/
structure Config where
  logCap : Nat
  logCap_pos : 1 ≤ logCap
deriving DecidableEq, Repr

namespace Config

/-- `C = 2^N`, the number of storage slots (00_scope.md R6, R9). -/
def capacity (c : Config) : Nat := 2 ^ c.logCap

/-- `MASK = C - 1`, `N` ones (00_scope.md R9). -/
def mask (c : Config) : Nat := c.capacity - 1

/-- The bytes the block can hold: `C - 1`, "one slot sacrificed" (00_scope.md R7). -/
def usableCapacity (c : Config) : Nat := c.capacity - 1

/-- DESIGN CHOICE (assumption 1): the spec gives no capacity, so the one state `State.reset` has to be of some
size; it is of the size of the spec's own examples, `N = 2` (40_init.md, first paragraph). No statement rests on it. -/
def exampleSize : Config := ⟨2, by decide⟩

/-- The value of `get_data` in a cycle with `get_ok = 0`: "the model draws it freely and no agent may use it"
(42_get.md R70, 93_implementation_defined.md section 1). A free value: it has no body, and it is applied to a
counter of `State` that every use advances, so each such cycle has a fresh draw (assumption 4). -/
opaque anyByte : Nat → Byte

end Config

end Sys2Proof
end

