-- ==== Sys2Proof/Syntax.lean ====
section
/-!
DEFINITION. The commands of the block, one constructor for each row of the opcode table (spec R46, R50). The only
operand is the byte to put, taken verbatim (spec R48); the bits a command ignores (spec R52) are no operands.
-/

namespace Sys2Proof

/-- The block's instruction: the command of one clock cycle (30_encoding.md R46, R50). -/
inductive Instr where
  /-- NOP: neither agent acts (40_init.md R60). -/
  | nop
  /-- GET: the consumer's `get()` alone (42_get.md R67). -/
  | get
  /-- PUT d: the producer's `put(d)` alone (41_put.md R61). -/
  | put (d : Byte)
  /-- PUTGET d: the producer's `put(d)` and the consumer's `get()` in one cycle (44_put_get.md R80). -/
  | putget (d : Byte)
  /-- INIT: the source's `init()`, the block's reset (40_init.md R56). -/
  | init
deriving DecidableEq, Repr

end Sys2Proof
end

