-- ==== Sys2Proof/WellFormed.lean ====
section
/-!
DEFINITION. The checks the spec makes on what is given to the block: its capacity parameter (spec R6), a command
word (spec R47) and a command (spec R52: there is no illegal one).
-/

namespace Sys2Proof

/-- "This spec requires `N >= 1`; `N = 0` (C = 1, no usable slot) is refused as a configuration" (00_scope.md R6). -/
def logCapOk (n : Nat) : Bool := 1 ≤ n

/-- A command word has exactly 11 bits (30_encoding.md R47), so a number of 2048 or more is none. -/
def cmdWordOk (w : Nat) : Bool := w < 2 ^ 11

/-- Every command is legal with every byte: "no command word is illegal, reserved, a hint or a custom space"
(30_encoding.md R52). One line a constructor, so that a new command could not slip past. -/
def Instr.wf : Instr → Bool
  | .nop => true
  | .get => true
  | .put _ => true
  | .putget _ => true
  | .init => true

end Sys2Proof
end

