-- ==== Sys2Proof/Decode.lean ====
section
/-!
DEFINITION. Decoding a command word (spec R47, R51), total on all 11-bit words; the opcode map as a table
(spec R50); the four input ports as a word and back (spec R47); the encoder (spec R50, R52, R54); and the words laid
out as bytes, which is the model's own convention (assumption 6), decoded by name of what is wrong.
-/

namespace Sys2Proof

/-! ### The command word -/

/-- The decode function of 30_encoding.md R51, case by case; it rejects no word (R52). -/
def decodeWord (w : CmdWord) : Instr :=
  if w.getLsbD 10 then .init
  else if w.extractLsb' 8 2 = 0b00#2 then .nop
  else if w.extractLsb' 8 2 = 0b01#2 then .get
  else if w.extractLsb' 8 2 = 0b10#2 then .put (w.extractLsb' 0 8)
  else .putget (w.extractLsb' 0 8)

/-- The canonical word of a command: the row's match, with the byte in bits 7 to 0 where the command has one and
the ignored bits 0 (30_encoding.md R50, R52, R54). -/
def encodeWord : Instr → CmdWord
  | .nop => 0x000#11
  | .get => 0x100#11
  | .put d => 0x200#11 ||| d.setWidth 11
  | .putget d => 0x300#11 ||| d.setWidth 11
  | .init => 0x400#11

/-- The bits of a word that its command ignores, set to 0 (30_encoding.md R52): `D` in NOP and GET, and `P`, `G`
and `D` in INIT. -/
def canonicalWord (w : CmdWord) : CmdWord :=
  if w.getLsbD 10 then w &&& 0x400#11
  else if w.getLsbD 9 then w
  else w &&& 0x700#11

/-! ### The opcode map -/

/-- One row of the opcode map: `word &&& mask = pattern` (the table calls the pattern match) says that the word is a spelling of the command. -/
structure OpcodeRow where
  mnemonic : String
  pattern : CmdWord
  mask : CmdWord
deriving DecidableEq, Repr

/-- The rows of 30_encoding.md R50 (the same as opcode_table.json). -/
def opcodeTable : List OpcodeRow :=
  [⟨"NOP", 0x000#11, 0x700#11⟩,
   ⟨"GET", 0x100#11, 0x700#11⟩,
   ⟨"PUT", 0x200#11, 0x700#11⟩,
   ⟨"PUTGET", 0x300#11, 0x700#11⟩,
   ⟨"INIT", 0x400#11, 0x400#11⟩]

/-- Whether a word belongs to a row. -/
def OpcodeRow.accepts (r : OpcodeRow) (w : CmdWord) : Bool := w &&& r.mask == r.pattern

/-- A command's mnemonic, as the opcode map spells it. -/
def Instr.mnemonic : Instr → String
  | .nop => "NOP"
  | .get => "GET"
  | .put _ => "PUT"
  | .putget _ => "PUTGET"
  | .init => "INIT"

/-! ### The input ports -/

/-- The word as "the concatenation of the three agents' inputs in one cycle" (30_encoding.md R47). -/
def Inputs.toWord (p : Inputs) : CmdWord :=
  BitVec.ofBool p.rst ++ BitVec.ofBool p.putEn ++ BitVec.ofBool p.getEn ++ p.putData

/-- The ports that a word drives (30_encoding.md R47). -/
def Inputs.ofWord (w : CmdWord) : Inputs :=
  { rst := w.getLsbD 10, putEn := w.getLsbD 9, getEn := w.getLsbD 8, putData := w.extractLsb' 0 8 }

/-- The command that the ports of one cycle make (30_encoding.md R46). -/
def Inputs.command (p : Inputs) : Instr := decodeWord p.toWord

/-! ### Words as bytes (the model's own layout, assumption 6) -/

/-- Why some bytes are no command word. -/
inductive DecodeError where
  /-- There is no byte at all. -/
  | noBytes
  /-- There is one byte: the upper three bits of the word are missing. -/
  | oneByteOnly
  /-- The second byte has a bit above bit 2: the word would have more than the 11 bits of 30_encoding.md R47. -/
  | moreThanElevenBits
deriving DecidableEq, Repr

/-- DESIGN CHOICE (assumption 6): a word of 11 bits is laid out as two bytes, the lower eight bits first, the five
bits above bit 10 zero. The block itself stores no command: they arrive on its ports (20_memory.md R44). -/
def decodeBytes : List Byte → Except DecodeError (Instr × List Byte)
  | [] => .error .noBytes
  | [_] => .error .oneByteOnly
  | lo :: hi :: rest =>
    if hi.toNat < 8 then .ok (decodeWord (hi.extractLsb' 0 3 ++ lo), rest)
    else .error .moreThanElevenBits

/-- The bytes of a command's canonical word, in the layout of `decodeBytes`. -/
def encodeBytes (i : Instr) : List Byte :=
  [(encodeWord i).extractLsb' 0 8, ((encodeWord i).extractLsb' 8 3).setWidth 8]

/-- The number of an instruction of `nbits` bits: the bits above are zero. -/
def tableWord (nbits w : Nat) : Nat := w % 2 ^ nbits

/-- What this decoder reads from an instruction whose bits, numbered as the opcode table numbers them, are `w`. -/
def decodeTableWord (nbits w : Nat) : Option Instr :=
  if tableWord nbits w < 2 ^ 16 then
    match decodeBytes [BitVec.ofNat 8 (tableWord nbits w), BitVec.ofNat 8 (tableWord nbits w / 256)] with
    | .ok (i, _) => some i
    | .error _ => none
  else none

end Sys2Proof
end

