-- ==== Sys2Proof/Machine/State.lean ====
section
/-!
DEFINITION. The state of the machine as plain data: the block's whole architectural state (spec R14), the parameter
it was built with (spec R6), and the model's own fields for what stands around the block: the commands that wait at its
ports (spec R46), the cycle number (spec R20), the counter of free draws (spec R70), and what the ports showed in each
cycle (spec R23, R49).
-/

namespace Sys2Proof.Machine

/-- Why the block stops. It has no constructor: "no command and no state makes the block trap, fault, stop or become
stuck" (60_exceptions.md R91). Nothing raises it, so it is neither safe nor unsafe. -/
inductive Fault
deriving DecidableEq, Repr

/-- What the model gives no meaning to. No command and no state of the block is among it (44_put_get.md R84: the cycle
function "never refuses"); `exec` and `step` raise none of these. -/
inductive Refusal where
  /-- A command with no meaning yet: raised by a refused arm of `exec`, and there is none. Safe. -/
  | notModelled (mnemonic : String)
  /-- Raised by `configure` alone, for `N = 0`: "refused as a configuration" (00_scope.md R6). Safe. -/
  | noUsableSlot
  /-- Raised by `drivePort` alone, when two contexts drive one port in one cycle: "outside this spec"
  (60_exceptions.md R99, 93_implementation_defined.md section 1: refuse). Safe. -/
  | portContention
deriving DecidableEq, Repr

/-- The backing storage, sparse: (index, byte) pairs, indices strictly rising, no pair whose byte is what an unlisted
index reads as (`Memory.unlisted`). The operations are in Machine/Ops.lean. -/
abbrev Memory := List Host.Cell

/-- The block's whole architectural state, "the triple `S = (PutI, GetI, Mem)`" (10_state.md R14), for the parameter
`N`. There is no flag register, counter, mode or pending operation. -/
structure Block (N : Nat) where
  /-- PutI, `N` bits: the slot the next successful put writes (10_state.md R15). -/
  putI : BitVec N
  /-- GetI, `N` bits: the slot the next successful get reads (10_state.md R16). -/
  getI : BitVec N
  /-- Mem, `C = 2^N` bytes indexed `0 .. C-1` (10_state.md R17). -/
  mem : Memory
deriving DecidableEq, Repr

/-- What the output ports show in one cycle (10_state.md R23, 30_encoding.md R49). -/
structure Outputs where
  /-- `put_ok` (41_put.md R63). -/
  putOk : Bool
  /-- `get_ok` (42_get.md R69). -/
  getOk : Bool
  /-- `get_data`: a free draw unless `get_ok = 1` (42_get.md R70). -/
  getData : Byte
  /-- `empty`, of the state at the start of the cycle (43_size_flags.md R75). -/
  empty : Bool
  /-- `full`, of the state at the start of the cycle (43_size_flags.md R76). -/
  full : Bool
  /-- The number on the `N`-bit output `count`, of the state at the start of the cycle (43_size_flags.md R74).
  `Block.statWord` gives it as bits. -/
  count : Nat
deriving DecidableEq, Repr

/-- One cycle as an observer at the ports sees it: the command applied and the outputs shown. -/
structure CycleRecord where
  cmd : Instr
  out : Outputs
deriving DecidableEq, Repr

/-- The machine: one block and what stands around it. `cfg` and `block` are the spec's; the other four fields are the
model's own (assumptions 2 to 5). -/
structure State where
  /-- The parameter the block was built with; "a parameter of the design, not state" (10_state.md R14). No step
  changes it; it stands here so that every statement is about every `N >= 1` (assumption 2). -/
  cfg : Config
  /-- The architectural state (10_state.md R14). -/
  block : Block cfg.logCap
  /-- The command words that the coming cycles find on the input ports, the next one first; when none is left, no
  agent acts (30_encoding.md R46; assumption 3). -/
  commands : List CmdWord
  /-- The cycle number `t`, which "takes the place of a program counter in the model" (10_state.md R20). -/
  cycle : Nat
  /-- How many free draws of `get_data` were made: the argument of `Config.anyByte` (assumption 4). -/
  draws : Nat
  /-- What the ports showed in each cycle, the latest first (assumption 5). -/
  history : List CycleRecord
deriving DecidableEq, Repr

namespace State

/-- The number in PutI, `0 .. C-1`. -/
abbrev putI (s : State) : Nat := s.block.putI.toNat

/-- The number in GetI, `0 .. C-1`. -/
abbrev getI (s : State) : Nat := s.block.getI.toNat

/-- `C`, the number of storage slots of this block. -/
abbrev capacity (s : State) : Nat := s.cfg.capacity

/-- A block of parameter `cfg` right after its first cycle with `rst = 1`, whatever was drawn at power-up: PutI = 0,
GetI = 0, `contents = []` (10_state.md R27, 70_reset_and_hazards.md R104). DESIGN CHOICE: storage that no put has
written lists nothing (assumption 7); the reset cycle was cycle 0, so the next one is cycle 1 (assumption 8). -/
def resetOf (cfg : Config) : State :=
  { cfg := cfg
    block := { putI := 0#cfg.logCap, getI := 0#cfg.logCap, mem := [] }
    commands := []
    cycle := 1
    draws := 0
    history := [] }

/-- The machine right after reset, for a block of the size of the spec's examples (assumption 1). -/
def reset : State := resetOf Config.exampleSize

/-- A block as it powers up, before any cycle: "PutI, GetI and every byte of Mem hold unspecified values" (10_state.md
R29). The draw is the argument, so what is stated for every draw is stated of every block. The first rising edge is
that of cycle 0 (R20). -/
def powerUp (cfg : Config) (draw : Block cfg.logCap) : State :=
  { cfg := cfg, block := draw, commands := [], cycle := 0, draws := 0, history := [] }

end State

end Sys2Proof.Machine
end

