-- ==== Sys2Proof/Machine/Ops.lean ====
section
/-!
DEFINITION. The operations over the storage (spec R11, R17, R30) and the two index registers (spec R15, R16), the end
of a cycle (spec R36, R116), and the refusal of a capacity (spec R6). Taking an exception has no operation here: the
block has none (spec R91, R95).
-/

namespace Sys2Proof.Machine

/-! ### Storage -/

namespace Memory

/-- What a slot that is not listed reads as. DESIGN CHOICE (assumption 7): the spec gives no value for a byte that no
put has written since power-up (10_state.md R27), and no read faults (20_memory.md R32). -/
def unlisted : Byte := 0x00#8

/-- `Mem[a]` (00_scope.md R11). -/
def read : Memory → Nat → Byte
  | [], _ => unlisted
  | (b, v) :: m, a => if a = b then v else read m a

/-- The list with the pair (a, v) in front, left out when `v` is what an unlisted slot reads as. -/
def cons (a : Nat) (v : Byte) (m : Memory) : Memory := if v = unlisted then m else (a, v) :: m

/-- `Mem[a] <- v` (00_scope.md R11): the canonical list that reads `v` at `a` and is unchanged elsewhere. -/
def write : Memory → Nat → Byte → Memory
  | [], a, v => cons a v []
  | (b, w) :: m, a, v =>
    if a < b then cons a v ((b, w) :: m)
    else if a = b then cons a v m
    else (b, w) :: write m a v

/-- Every listed index is at least `lo`, and they rise strictly; no listed byte is the unlisted one. -/
def wfFrom : Nat → Memory → Bool
  | _, [] => true
  | lo, (b, v) :: m => (lo ≤ b) && (v != unlisted) && wfFrom (b + 1) m

/-- The canonical form, so that storages that read the same everywhere are equal lists. -/
def wf (m : Memory) : Bool := wfFrom 0 m

/-- Every listed index is a slot of a storage of `c` bytes: `0 <= a < C` (00_scope.md R11). -/
def within (c : Nat) (m : Memory) : Bool := m.all (fun cell => decide (cell.1 < c))

end Memory

/-! ### The two index registers -/

namespace Block

/-- An index advanced by one, modulo `C`: an `N`-bit register that wraps from `C - 1` to 0 (10_state.md R15, R16). -/
def next {N : Nat} (i : BitVec N) : BitVec N := i + 1#N

/-- A successful put's effect: "stores the byte at the put index and advances the index modulo capacity"
(41_put.md R64, R65). -/
def store {N : Nat} (S : Block N) (d : Byte) : Block N :=
  { putI := next S.putI, getI := S.getI, mem := S.mem.write S.putI.toNat d }

/-- A successful get's effect on the state: it advances the get index and does not clear the slot (42_get.md R71,
10_state.md R17). -/
def advanceGet {N : Nat} (S : Block N) : Block N :=
  { putI := S.putI, getI := next S.getI, mem := S.mem }

/-- The byte a successful get shows: `Mem[S.GetI]` (42_get.md R70). -/
def front {N : Nat} (S : Block N) : Byte := S.mem.read S.getI.toNat

/-- INIT's effect: both indices 0, the storage unchanged (40_init.md R57). -/
def clear {N : Nat} (S : Block N) : Block N := { putI := 0#N, getI := 0#N, mem := S.mem }

/-- The storage is in canonical form and lists slots of this block only. -/
def wf {N : Nat} (S : Block N) : Bool := S.mem.wf && S.mem.within (2 ^ N)

end Block

/-! ### A state at the parameter -/

/-- A block of parameter `n`, or its refusal by name (00_scope.md R6). -/
def configure (n : Nat) : Except Refusal Config :=
  if h : 1 ≤ n then .ok ⟨n, h⟩ else .error .noUsableSlot

end Sys2Proof.Machine
end

