-- ==== Sys2Proof/Machine/Flags.lean ====
section
/-!
DEFINITION. The status outputs `count`, `empty`, `full` (spec R73 to R78), which are functions of the two index
registers alone; the free space (spec R42, R78); the same outputs from the source's other representation, wide
counters (spec R79); and the status word `STAT` (spec R49).
-/

namespace Sys2Proof.Machine

namespace Block

/-- Occupancy, `N` bits: `(S.PutI - S.GetI) mod C` (43_size_flags.md R74), also the source's `size()` (R77). -/
def count {N : Nat} (S : Block N) : BitVec N := S.putI - S.getI

/-- `empty(S) := (S.PutI == S.GetI)` (43_size_flags.md R75). -/
def empty {N : Nat} (S : Block N) : Bool := S.putI == S.getI

/-- `full(S) := ((S.PutI + 1) mod C == S.GetI)` (43_size_flags.md R76). -/
def full {N : Nat} (S : Block N) : Bool := next S.putI == S.getI

/-- The free space the producer may rely on: `C - 1 - count` (43_size_flags.md R78). -/
def freeSpace {N : Nat} (S : Block N) : Nat := 2 ^ N - 1 - S.count.toNat

/-- `STAT`, `N + 2` bits: `full` in bit `N + 1`, `empty` in bit `N`, `count` in bits `N-1` to 0 (30_encoding.md R49). -/
def statWord {N : Nat} (S : Block N) : BitVec (N + 2) :=
  (BitVec.ofBool S.full ++ BitVec.ofBool S.empty ++ S.count).cast (by omega)

end Block

namespace State

/-- The number on the `count` output: the occupancy of the state (43_size_flags.md R74, R77). -/
abbrev count (s : State) : Nat := s.block.count.toNat

/-- The `empty` output of the state (43_size_flags.md R75). -/
abbrev empty (s : State) : Bool := s.block.empty

/-- The `full` output of the state (43_size_flags.md R76). -/
abbrev full (s : State) : Bool := s.block.full

end State

/-- The source's other representation of the indices: "wrapping unsigned counters masked by `capacity-1`", of any
width `W` (43_size_flags.md R79). -/
structure Counters (W : Nat) where
  put : BitVec W
  get : BitVec W
deriving DecidableEq, Repr

namespace Counters

/-- A counter masked by `C - 1`. -/
def masked {W : Nat} (N : Nat) (c : BitVec W) : BitVec W := c &&& BitVec.ofNat W (2 ^ N - 1)

/-- The occupancy from the counters: their difference, masked. -/
def count {W : Nat} (N : Nat) (k : Counters W) : BitVec W := masked N (k.put - k.get)

/-- `empty` from the counters, compared on the masked values. -/
def empty {W : Nat} (N : Nat) (k : Counters W) : Bool := masked N k.put == masked N k.get

/-- `full` from the counters, compared on the masked values. -/
def full {W : Nat} (N : Nat) (k : Counters W) : Bool := masked N (k.put + 1#W) == masked N k.get

/-- The block whose `N`-bit registers are the masked counters. -/
def toBlock {W : Nat} (N : Nat) (k : Counters W) (m : Memory) : Block N :=
  { putI := k.put.setWidth N, getI := k.get.setWidth N, mem := m }

end Counters

end Sys2Proof.Machine
end

