-- ==== Sys2Proof/Machine/Operands.lean ====
section
/-!
DEFINITION. The operands and results of a command at the ports: the request each agent makes (spec R62, R68, R97) and
their merge into one cycle's inputs, the result word `RES` (spec R49), what the consumer may use of it (spec R110), and
the end of a cycle, in which the outputs are shown and every effect commits together (spec R36, R38, R116).
-/

namespace Sys2Proof.Machine

/-- The inputs of one cycle from the three roles' requests (60_exceptions.md R97): `rst` from the initializer,
`some d` from a producer that asks `put(d)`, `true` from a consumer that asks `get()`. An idle producer's `put_data`
has no effect (41_put.md R62); it is written 0, the canonical spelling (30_encoding.md R52). -/
def mergeRequests (rst : Bool) (put : Option Byte) (get : Bool) : Inputs :=
  { rst := rst, putEn := put.isSome, getEn := get, putData := put.getD 0x00#8 }

/-- What several software contexts that play ONE role make of their port in one cycle: nothing, the one request, or a
refusal when two of them act at once (60_exceptions.md R99, 70_reset_and_hazards.md R108). -/
def drivePort {α : Type} (requests : List (Option α)) : Except Refusal (Option α) :=
  match requests.filterMap id with
  | [] => .ok none
  | [r] => .ok (some r)
  | _ :: _ :: _ => .error .portContention

/-- `RES`, 10 bits: `put_ok`, `get_ok`, `get_data` (30_encoding.md R49). -/
def Outputs.resWord (o : Outputs) : BitVec 10 := BitVec.ofBool o.putOk ++ BitVec.ofBool o.getOk ++ o.getData

/-- What the consumer may use of a cycle's outputs: "`get_data` is meaningful only in a cycle with `get_ok = 1`"
(70_reset_and_hazards.md R110). -/
def Outputs.usableData (o : Outputs) : Option Byte := if o.getOk then some o.getData else none

/-- The outputs of a cycle that starts in `S`: `put_ok` as given; `got` is the byte of a successful get, or none;
`any` is the draw that `get_data` shows then (42_get.md R70); the status outputs are those of `S` (43_size_flags.md R73). -/
def outputsOf {N : Nat} (S : Block N) (putOk : Bool) (got : Option Byte) (any : Byte) : Outputs :=
  { putOk := putOk
    getOk := got.isSome
    getData := got.getD any
    empty := S.empty
    full := S.full
    count := S.count.toNat }

namespace State

/-- The outputs of the cycle now starting, given its results. -/
def outputs (s : State) (putOk : Bool) (got : Option Byte) : Outputs :=
  outputsOf s.block putOk got (Config.anyByte s.draws)

/-- The closing rising edge of a cycle (70_reset_and_hazards.md R116): the block takes its next state all at once
(20_memory.md R36), the cycle number advances by exactly 1 (10_state.md R20), a draw is used up when `get_data` was
unspecified, and the cycle is put on record. The parameter and the waiting commands are not touched. -/
def endCycle (s : State) (cmd : Instr) (putOk : Bool) (got : Option Byte) (after : Block s.cfg.logCap) : State :=
  { cfg := s.cfg
    block := after
    commands := s.commands
    cycle := s.cycle + 1
    draws := if got.isSome then s.draws else s.draws + 1
    history := { cmd := cmd, out := s.outputs putOk got } :: s.history }

/-- The outputs of the latest cycle on record. -/
def lastOut (s : State) : Option Outputs := s.history.head?.map CycleRecord.out

end State

end Sys2Proof.Machine
end

