-- ==== Sys2Proof/Machine/Get.lean ====
section
/-!
DEFINITION. GET (42_get.md).
-/

namespace Sys2Proof.Machine

/-- GET (42_get.md R67): on an empty FIFO the get fails, `get_data` is any and nothing changes (R72); otherwise it
shows `Mem[S.GetI]` in the same cycle (R70) and GetI advances (R71). -/
def execGet (s : State) : Host.Outcome State Fault Refusal :=
  if s.block.empty then .next (s.endCycle .get false none s.block)
  else .next (s.endCycle .get false (some s.block.front) s.block.advanceGet)

end Sys2Proof.Machine
end

