-- ==== Sys2Proof/Machine/Init.lean ====
section
/-!
DEFINITION. INIT and NOP (40_init.md).
-/

namespace Sys2Proof.Machine

/-- INIT (40_init.md R56 to R58): PutI and GetI become 0 whatever they were, the storage stays, and a put or get
requested in the same cycle is discarded: `put_ok = 0`, `get_ok = 0`, `get_data` any. -/
def execInit (s : State) : Host.Outcome State Fault Refusal :=
  .next (s.endCycle .init false none s.block.clear)

/-- NOP (40_init.md R60): no state changes; `put_ok = 0` and `get_ok = 0` since nothing was requested. -/
def execNop (s : State) : Host.Outcome State Fault Refusal :=
  .next (s.endCycle .nop false none s.block)

end Sys2Proof.Machine
end

