-- ==== Sys2Proof/Machine/Put.lean ====
section
/-!
DEFINITION. PUT (41_put.md).
-/

namespace Sys2Proof.Machine

/-- PUT d (41_put.md R61): on a full FIFO the put fails and nothing changes (R66); otherwise the byte is stored at
`S.PutI` (R64) and PutI advances (R65). -/
def execPut (d : Byte) (s : State) : Host.Outcome State Fault Refusal :=
  if s.block.full then .next (s.endCycle (.put d) false none s.block)
  else .next (s.endCycle (.put d) true none (s.block.store d))

end Sys2Proof.Machine
end

