-- ==== Sys2Proof/Machine/PutGet.lean ====
section
/-!
DEFINITION. PUTGET (44_put_get.md, section 1).
-/

namespace Sys2Proof.Machine

/-- PUTGET d (44_put_get.md R80): both operations are judged on the start state `S`, so neither sees the other
(R81): the put succeeds when `S` is not full, the get when `S` is not empty, and each writes its own register. -/
def execPutget (d : Byte) (s : State) : Host.Outcome State Fault Refusal :=
  .next (s.endCycle (.putget d) (!s.block.full) (if s.block.empty then none else some s.block.front)
    { mem := if s.block.full then s.block.mem else s.block.mem.write s.block.putI.toNat d
      putI := if s.block.full then s.block.putI else Block.next s.block.putI
      getI := if s.block.empty then s.block.getI else Block.next s.block.getI })

end Sys2Proof.Machine
end

