-- ==== Sys2Proof/Machine/Dispatch.lean ====
section
/-!
DEFINITION. One cycle of the block under one command: one arm a constructor, each a direct call of its meaning.
-/

namespace Sys2Proof.Machine

def exec (i : Instr) (s : State) : Host.Outcome State Fault Refusal :=
  match i with
  | .nop => Sys2Proof.Machine.execNop s
  | .get => Sys2Proof.Machine.execGet s
  | .put d => Sys2Proof.Machine.execPut d s
  | .putget d => Sys2Proof.Machine.execPutget d s
  | .init => Sys2Proof.Machine.execInit s

end Sys2Proof.Machine
end

