-- ==== Sys2Proof/Machine/Fetch.lean ====
section
/-!
DEFINITION. Where a cycle's command comes from: the words that wait at the input ports (spec R20, R44, R46). The
block fetches no instruction; "its commands arrive on ports each cycle".
-/

namespace Sys2Proof.Machine

namespace State

/-- The word on the input ports in the cycle now starting. When no command waits, no agent acts, which is NOP's
canonical word: "one command is applied in every cycle, including the cycles in which no agent acts (the NOP command)"
(30_encoding.md R46; assumption 3). -/
def portWord (s : State) : CmdWord := s.commands.headD 0x000#11

/-- The state in which the word of this cycle no longer waits. -/
def takeWord (s : State) : State := { s with commands := s.commands.tail }

/-- The state in which `w` is the word of the next cycle, before whatever waits already (assumption 9). -/
def offerWord (s : State) (w : CmdWord) : State := { s with commands := w :: s.commands }

/-- The state in which the words of a program wait, one a cycle in order (30_encoding.md R46, R54), after whatever waits
already: how a program is loaded (assumption 9). -/
def load (s : State) (program : List CmdWord) : State := { s with commands := s.commands ++ program }

/-- The state in which the next cycle's word is the one whose bits are `w`, of `nbits` bits. A number that has more
than 11 bits is no command word (30_encoding.md R47) and cannot be put on the ports: then nothing changes. -/
def offerBits (s : State) (nbits w : Nat) : State :=
  if cmdWordOk (tableWord nbits w) then s.offerWord (BitVec.ofNat 11 (tableWord nbits w)) else s

end State

end Sys2Proof.Machine
end

