-- ==== Sys2Proof/Machine/Step.lean ====
section
/-!
DEFINITION. One step of the machine: one clock cycle under the command word now on the ports (spec R46, R116).
-/

namespace Sys2Proof.Machine

/-- One clock cycle: the word on the ports is decoded and its command applied (30_encoding.md R46, R51). -/
def step (s : State) : Host.Outcome State Fault Refusal :=
  exec (decodeWord s.portWord) s.takeWord

/-- The state whose very next step runs the instruction whose bits are `w` (assumption 9). -/
def State.withFetchWord (s : State) (nbits w : Nat) : State := s.offerBits nbits w

end Sys2Proof.Machine
end

