-- ==== Sys2Proof/Machine/Contents.lean ====
section
/-!
DEFINITION. The live slots and the abstract contents of a block (spec R24), and the bounded queue it is observationally
equivalent to (spec R85, R86).
-/

namespace Sys2Proof.Machine

namespace Block

/-- The live slots, the oldest first: `(S.GetI + k) mod C` for `0 <= k < count(S)` (10_state.md R24). -/
def liveSlots {N : Nat} (S : Block N) : List Nat :=
  (List.range S.count.toNat).map (fun k => (S.getI.toNat + k) % 2 ^ N)

/-- `contents(S)`: the bytes of the live slots, "oldest first" (10_state.md R24). -/
def contents {N : Nat} (S : Block N) : List Byte := S.liveSlots.map S.mem.read

end Block

/-- The bytes the machine holds, oldest first. -/
abbrev State.contents (s : State) : List Byte := s.block.contents

/-- What one command does to a bounded queue: its contents after, whether the put succeeds, and the byte got. -/
structure QueueResult where
  after : List Byte
  putOk : Bool
  got : Option Byte
deriving DecidableEq, Repr

/-- The table of 44_put_get.md R85, for a queue that has `cap` slots and holds at most `cap - 1` bytes. -/
def queueStep (cap : Nat) : Instr → List Byte → QueueResult
  | .nop, c => { after := c, putOk := false, got := none }
  | .init, _ => { after := [], putOk := false, got := none }
  | .put d, c =>
    if c.length < cap - 1 then { after := c ++ [d], putOk := true, got := none }
    else { after := c, putOk := false, got := none }
  | .get, [] => { after := [], putOk := false, got := none }
  | .get, b :: c => { after := c, putOk := false, got := some b }
  | .putget d, [] => { after := [d], putOk := true, got := none }
  | .putget d, b :: c =>
    if (b :: c).length < cap - 1 then { after := c ++ [d], putOk := true, got := some b }
    else { after := c, putOk := false, got := some b }

/-- The outputs as functions of the contents and the command alone (44_put_get.md R86), `any` being the draw. -/
def queueOutputs (cap : Nat) (i : Instr) (c : List Byte) (any : Byte) : Outputs :=
  { putOk := (queueStep cap i c).putOk
    getOk := (queueStep cap i c).got.isSome
    getData := (queueStep cap i c).got.getD any
    empty := c.length == 0
    full := c.length == cap - 1
    count := c.length }

end Sys2Proof.Machine
end

