-- ==== Sys2Proof/Machine/Trace.lean ====
section
/-!
DEFINITION. Runs of several cycles (spec R38 item 3: "the state after cycle `t` is the result of applying cycles
`0 .. t` in order") and what a record of cycles says was put and got since the last INIT (spec R87, R88).
-/

namespace Sys2Proof.Machine

/-- The commands applied in order, one a cycle. -/
def execAll : List Instr → State → Host.Outcome State Fault Refusal
  | [], s => .next s
  | i :: is, s =>
    match exec i s with
    | .next t => execAll is t
    | .fault r => .fault r
    | .refused r => .refused r

/-- The byte on `put_data`, of a command that requests a put. -/
def putByte : Instr → Option Byte
  | .nop => none
  | .get => none
  | .put d => some d
  | .putget d => some d
  | .init => none

/-- Whether a command requests a get. -/
def requestsGet : Instr → Bool
  | .nop => false
  | .get => true
  | .put _ => false
  | .putget _ => true
  | .init => false

/-- The bytes of the cycles with `put_ok = 1` since the last INIT, in cycle order: `p_1, p_2, ...` of 44_put_get.md
R88. The record has the latest cycle first. -/
def acceptedBytes : List CycleRecord → List Byte
  | [] => []
  | r :: h =>
    if r.cmd = .init then []
    else acceptedBytes h ++ (if r.out.putOk then (putByte r.cmd).toList else [])

/-- The `get_data` of the cycles with `get_ok = 1` since the last INIT, in cycle order: `g_1, g_2, ...` of 44_put_get.md
R88. -/
def gotBytes : List CycleRecord → List Byte
  | [] => []
  | r :: h =>
    if r.cmd = .init then []
    else gotBytes h ++ (if r.out.getOk then [r.out.getData] else [])

end Sys2Proof.Machine
end

