-- ==== Sys2Proof/Machine/Agents.lean ====
section
/-!
DEFINITION. The three agents that drive the ports (spec R97), each with a list of operations, and the block between
them: one cycle of the whole system. The pseudo-instructions PUTWAIT and GETWAIT (spec R55) are operations of an
agent, since "it is the agent that decides to retry"; the block sees PUT and GET alone. An agent's request of a cycle is
read off its list, so no enable depends on a result of the same cycle (spec R113).
-/

namespace Sys2Proof.Machine

/-- What the producer does in its next cycles. -/
inductive ProducerOp where
  /-- One cycle without a request. -/
  | idle
  /-- `put(d)` once, whatever its result. -/
  | put (d : Byte)
  /-- PUTWAIT d: `put(d)` in successive cycles until `put_ok = 1` (30_encoding.md R55). -/
  | putWait (d : Byte)
deriving DecidableEq, Repr

/-- What the consumer does in its next cycles. -/
inductive ConsumerOp where
  /-- One cycle without a request. -/
  | idle
  /-- `get()` once, whatever its result. -/
  | get
  /-- GETWAIT: `get()` in successive cycles until `get_ok = 1` (30_encoding.md R55). -/
  | getWait
deriving DecidableEq, Repr

/-- The byte a producer operation asks to put. -/
def ProducerOp.request : ProducerOp → Option Byte
  | .idle => none
  | .put d => some d
  | .putWait d => some d

/-- Whether an operation ends with a cycle whose `put_ok` is `ok`. -/
def ProducerOp.ends (ok : Bool) : ProducerOp → Bool
  | .idle => true
  | .put _ => true
  | .putWait _ => ok

/-- Whether a consumer operation asks to get. -/
def ConsumerOp.request : ConsumerOp → Bool
  | .idle => false
  | .get => true
  | .getWait => true

/-- Whether an operation ends with a cycle whose `get_ok` is `ok`. -/
def ConsumerOp.ends (ok : Bool) : ConsumerOp → Bool
  | .idle => true
  | .get => true
  | .getWait => ok

/-- One block with its three agents. An agent whose list is empty stays idle. -/
structure System where
  state : State
  producer : List ProducerOp
  consumer : List ConsumerOp
  /-- `rst` in the coming cycles. -/
  initializer : List Bool
deriving DecidableEq, Repr

namespace System

/-- The ports in the cycle now starting: the merge of the three agents' requests (60_exceptions.md R97). -/
def ports (y : System) : Inputs :=
  mergeRequests (y.initializer.headD false)
    ((y.producer.headD .idle).request) ((y.consumer.headD .idle).request)

/-- The operations that remain after a cycle in which the head of the list ended or did not. -/
def dropDone {α : Type} (done : α → Bool) : List α → List α
  | [] => []
  | a :: l => if done a then l else a :: l

/-- The system after a cycle whose state is `t` and whose results are `putOk` and `getOk`. -/
def afterCycle (y : System) (t : State) (putOk getOk : Bool) : System :=
  { state := t
    producer := dropDone (ProducerOp.ends putOk) y.producer
    consumer := dropDone (ConsumerOp.ends getOk) y.consumer
    initializer := y.initializer.tail }

/-- One cycle: the ports' command is applied to the block, and each agent reads its own result bit. -/
def step (y : System) : Host.Outcome System Fault Refusal :=
  match exec y.ports.command y.state with
  | .next t =>
    .next (y.afterCycle t ((t.lastOut.map Outputs.putOk).getD false) ((t.lastOut.map Outputs.getOk).getD false))
  | .fault r => .fault r
  | .refused r => .refused r

/-- Several cycles. -/
def run : Nat → System → Host.Outcome System Fault Refusal
  | 0, y => .next y
  | k + 1, y =>
    match y.step with
    | .next z => run k z
    | .fault r => .fault r
    | .refused r => .refused r

end System

end Sys2Proof.Machine
end

