-- ==== Sys2Proof/Machine/Assembly.lean ====
section
/-!
DEFINITION. The textual syntax of command streams (spec R54) and its pseudo-instructions (spec R55), over lists of
characters: a line is written out and read back. The source has no assembler; the syntax is the spec's own.
-/

namespace Sys2Proof.Machine

/-- One line of a command stream, its label and comment left aside. -/
inductive Line where
  /-- A command, applied in one cycle. -/
  | command (i : Instr)
  /-- SIZE alone: a cycle whose only action is to read `count`. -/
  | size
  /-- RESET. -/
  | reset
  /-- PUTWAIT d, a loop of the producer. -/
  | putWait (d : Byte)
  /-- GETWAIT, a loop of the consumer. -/
  | getWait
deriving DecidableEq, Repr

/-- What a line stands for, where it stands for one command: SIZE "alone, it is NOP", RESET is INIT; PUTWAIT and
GETWAIT "are loops of the agent, not of the block" (30_encoding.md R55) and stand for no one command. -/
def Line.command? : Line → Option Instr
  | .command i => some i
  | .size => some .nop
  | .reset => some .init
  | .putWait _ => none
  | .getWait => none

/-- The producer's operation of a line that is the producer's alone. -/
def Line.producerOp? : Line → Option ProducerOp
  | .command (.put d) => some (.put d)
  | .putWait d => some (.putWait d)
  | .command .nop => some .idle
  | .size => some .idle
  | .command .get => none
  | .command (.putget _) => none
  | .command .init => none
  | .reset => none
  | .getWait => none

/-- The consumer's operation of a line that is the consumer's alone. -/
def Line.consumerOp? : Line → Option ConsumerOp
  | .command .get => some .get
  | .getWait => some .getWait
  | .command .nop => some .idle
  | .size => some .idle
  | .command (.put _) => none
  | .command (.putget _) => none
  | .command .init => none
  | .reset => none
  | .putWait _ => none

namespace Assembly

/-! ### Writing a line -/

/-- The sixteen hex digits, upper case as the spec writes them. -/
def hexDigits : List Char :=
  ['0', '1', '2', '3', '4', '5', '6', '7', '8', '9', 'A', 'B', 'C', 'D', 'E', 'F']

/-- A byte as `0xHH`, "two hex digits" (30_encoding.md R54). -/
def renderByte (d : Byte) : List Char :=
  ['0', 'x', hexDigits.getD (d.toNat / 16) '0', hexDigits.getD (d.toNat % 16) '0']

/-- A line in the form of 30_encoding.md R54 and R55: the mnemonic, then the byte. -/
def renderLine : Line → List Char
  | .command .nop => ['N', 'O', 'P']
  | .command .get => ['G', 'E', 'T']
  | .command (.put d) => ['P', 'U', 'T', ' '] ++ renderByte d
  | .command (.putget d) => ['P', 'U', 'T', 'G', 'E', 'T', ' '] ++ renderByte d
  | .command .init => ['I', 'N', 'I', 'T']
  | .size => ['S', 'I', 'Z', 'E']
  | .reset => ['R', 'E', 'S', 'E', 'T']
  | .putWait d => ['P', 'U', 'T', 'W', 'A', 'I', 'T', ' '] ++ renderByte d
  | .getWait => ['G', 'E', 'T', 'W', 'A', 'I', 'T']

/-! ### Reading a line -/

/-- Why some characters are no line. -/
inductive ParseError where
  /-- The first word is no mnemonic of 30_encoding.md R54 or R55. -/
  | unknownMnemonic
  /-- A byte is missing or is neither `0xHH` nor a quoted ASCII character. -/
  | badByte
  /-- Something other than a comment follows the line. -/
  | trailingText
deriving DecidableEq, Repr

/-- The apostrophe that quotes a character. -/
def quote : Char := Char.ofNat 39

/-- A space or a tab (assumption 10). -/
def isBlank (c : Char) : Bool := c == ' ' || c == Char.ofNat 9

/-- The value of a hex digit; lower-case digits are read too (assumption 10). -/
def hexValue (c : Char) : Option Nat :=
  if '0'.toNat ≤ c.toNat ∧ c.toNat ≤ '9'.toNat then some (c.toNat - '0'.toNat)
  else if 'A'.toNat ≤ c.toNat ∧ c.toNat ≤ 'F'.toNat then some (c.toNat - 'A'.toNat + 10)
  else if 'a'.toNat ≤ c.toNat ∧ c.toNat ≤ 'f'.toNat then some (c.toNat - 'a'.toNat + 10)
  else none

/-- Characters without the blanks in front. -/
def skipBlanks (cs : List Char) : List Char := cs.dropWhile isBlank

/-- A byte in front: `0xHH`, or one quoted ASCII character (30_encoding.md R54), and what follows it. -/
def readByte : List Char → Option (Byte × List Char)
  | c0 :: c1 :: c2 :: cs =>
    if c0 = quote ∧ c2 = quote then
      if c1.toNat < 128 then some (BitVec.ofNat 8 c1.toNat, cs) else none
    else
      match c0 == '0' && c1 == 'x', hexValue c2, cs with
      | true, some hi, c3 :: rest =>
        match hexValue c3 with
        | some lo => some (BitVec.ofNat 8 (16 * hi + lo), rest)
        | none => none
      | _, _, _ => none
  | _ => none

/-- The line, when nothing but blanks and a comment ("`;` starts a comment") is left. -/
def endLine (l : Line) (cs : List Char) : Except ParseError Line :=
  match skipBlanks cs with
  | [] => .ok l
  | c :: _ => if c = ';' then .ok l else .error .trailingText

/-- A line with a byte operand. DESIGN CHOICE (assumption 10): 30_encoding.md R54 shows blanks between a mnemonic and
its byte and does not say whether one must stand there; any number is read, none included. -/
def withByte (f : Byte → Line) (cs : List Char) : Except ParseError Line :=
  match readByte (skipBlanks cs) with
  | some (d, rest) => endLine (f d) rest
  | none => .error .badByte

/-- Characters without a decimal cycle label `t:` in front; "labels are not commands" (30_encoding.md R54). -/
def skipLabel (cs : List Char) : List Char :=
  match cs.takeWhile Char.isDigit, cs.dropWhile Char.isDigit with
  | _ :: _, ':' :: rest => skipBlanks rest
  | _, _ => cs

/-- One line with a command (30_encoding.md R54, R55). Mnemonics are upper case. -/
def parseLine (cs : List Char) : Except ParseError Line :=
  let body := skipLabel (skipBlanks cs)
  let word := body.takeWhile Char.isUpper
  let rest := body.dropWhile Char.isUpper
  if word = ['N', 'O', 'P'] then endLine (.command .nop) rest
  else if word = ['G', 'E', 'T'] then endLine (.command .get) rest
  else if word = ['P', 'U', 'T'] then withByte (fun d => .command (.put d)) rest
  else if word = ['P', 'U', 'T', 'G', 'E', 'T'] then withByte (fun d => .command (.putget d)) rest
  else if word = ['I', 'N', 'I', 'T'] then endLine (.command .init) rest
  else if word = ['S', 'I', 'Z', 'E'] then endLine .size rest
  else if word = ['R', 'E', 'S', 'E', 'T'] then endLine .reset rest
  else if word = ['P', 'U', 'T', 'W', 'A', 'I', 'T'] then withByte .putWait rest
  else if word = ['G', 'E', 'T', 'W', 'A', 'I', 'T'] then endLine .getWait rest
  else .error .unknownMnemonic

/-- The lines of a program, "one command per line, each applied in one cycle in order" (30_encoding.md R54). -/
def parseLines : List (List Char) → Except ParseError (List Line)
  | [] => .ok []
  | l :: ls =>
    match parseLine l, parseLines ls with
    | .ok a, .ok b => .ok (a :: b)
    | .error e, _ => .error e
    | .ok _, .error e => .error e

/-- The words of a program whose every line stands for one command; none when a line is a loop of an agent. -/
def words : List Line → Option (List CmdWord)
  | [] => some []
  | l :: ls =>
    match l.command?, words ls with
    | some i, some ws => some (encodeWord i :: ws)
    | _, _ => none

/-- The operations of a program that is the producer's alone; none when a line is not. -/
def producerProgram : List Line → Option (List ProducerOp)
  | [] => some []
  | l :: ls =>
    match l.producerOp?, producerProgram ls with
    | some o, some os => some (o :: os)
    | _, _ => none

/-- The operations of a program that is the consumer's alone; none when a line is not. -/
def consumerProgram : List Line → Option (List ConsumerOp)
  | [] => some []
  | l :: ls =>
    match l.consumerOp?, consumerProgram ls with
    | some o, some os => some (o :: os)
    | _, _ => none

end Assembly

end Sys2Proof.Machine
end

