-- ==== Sys2Proof/Machine/Cycle.lean ====
section
/-!
DEFINITION. The cycle function over the raw inputs (spec R84), written from its own pseudocode and apart from the
five meanings, which are said to be its cases; and the failure results of a cycle (spec R90).
-/

namespace Sys2Proof.Machine

/-- `put_ok` (41_put.md R63): `I.put_en and not I.rst and not full(S)`. -/
def putSucceeds {N : Nat} (S : Block N) (p : Inputs) : Bool := p.putEn && !p.rst && !S.full

/-- `get_ok` (42_get.md R69): `I.get_en and not I.rst and not empty(S)`. -/
def getSucceeds {N : Nat} (S : Block N) (p : Inputs) : Bool := p.getEn && !p.rst && !S.empty

/-- `Step(S, I)` of 44_put_get.md R84; `any` is the cycle's draw for `get_data`. -/
def cycle {N : Nat} (S : Block N) (p : Inputs) (any : Byte) : Block N × Outputs :=
  let pok := putSucceeds S p
  let gok := getSucceeds S p
  ( if p.rst then { putI := 0#N, getI := 0#N, mem := S.mem }
    else
      { mem := if pok then S.mem.write S.putI.toNat p.putData else S.mem
        putI := if pok then S.putI + 1#N else S.putI
        getI := if gok then S.getI + 1#N else S.getI },
    { count := S.count.toNat
      empty := S.empty
      full := S.full
      putOk := pok
      getOk := gok
      getData := if gok then S.mem.read S.getI.toNat else any } )

/-- The abnormal outcomes of a cycle (60_exceptions.md R90). They change no state and are recorded nowhere. -/
inductive Failure where
  /-- PUT_FULL, "queue full on put". -/
  | putFull
  /-- GET_EMPTY, "queue empty on get". -/
  | getEmpty
  /-- A put that INIT discarded; the spec gives it no name. -/
  | putDiscarded
  /-- A get that INIT discarded; the spec gives it no name. -/
  | getDiscarded
deriving DecidableEq, Repr

/-- Whether a failure is the producer's port's; the others are the consumer's (60_exceptions.md R94: "at most one
failure per port"). -/
def Failure.isPuts : Failure → Bool
  | .putFull => true
  | .getEmpty => false
  | .putDiscarded => true
  | .getDiscarded => false

/-- The failures of a cycle that starts in `S` under the inputs `p`, the producer's first (60_exceptions.md R90). -/
def failures {N : Nat} (S : Block N) (p : Inputs) : List Failure :=
  (if p.putEn then if p.rst then [.putDiscarded] else if S.full then [.putFull] else [] else []) ++
  (if p.getEn then if p.rst then [.getDiscarded] else if S.empty then [.getEmpty] else [] else [])

end Sys2Proof.Machine
end

