-- ==== Sys2Proof/Safety.lean ====
section
/-!
DEFINITION. What claims call a good state and a good run: the invariant of the storage's form, the FIFO law as an
invariant of one state (spec R87, R88), and the duties of the agents (spec R100, R106, R110).
-/

namespace Sys2Proof.Machine

/-- The storage is in its canonical form and lists slots of this block only (20_memory.md R30: the index space is
`0 .. C-1`). The registers need no check: they "cannot hold an out-of-range value" (20_memory.md R34). -/
def State.wf (s : State) : Bool := s.block.wf

/-- FIFO order and the occupancy law, of one state: what was accepted since the last INIT is what was got since then
followed by what the block still holds (44_put_get.md R87, R88). -/
def FifoInv (s : State) : Prop :=
  acceptedBytes s.history = gotBytes s.history ++ s.block.contents

/-- The run ended in a state: neither a fault nor a refusal. -/
def Completes {σ φ ρ : Type} (r : Host.Outcome σ φ ρ) : Prop := ∃ t, r = .next t

/-- The initializer's duty (60_exceptions.md R100, 70_reset_and_hazards.md R106): `rst` is asserted for at least one
cycle before the first put or get. -/
def resetBeforeUse : List Instr → Bool
  | [] => true
  | .init :: _ => true
  | .nop :: is => resetBeforeUse is
  | .get :: _ => false
  | .put _ :: _ => false
  | .putget _ :: _ => false

/-- A cycle's results as their agents may use them: `put_ok`, `get_ok`, and the byte where a get succeeded. -/
def CycleRecord.results (r : CycleRecord) : Bool × Bool × Option Byte := (r.out.putOk, r.out.getOk, r.out.usableData)

/-- The run has no INIT. -/
def noInit (is : List Instr) : Bool := is.all (fun i => decide (i ≠ .init))

/-- What the consumer was given to use, cycle by cycle, oldest first (70_reset_and_hazards.md R110). -/
def usableBytes (h : List CycleRecord) : List Byte := h.reverse.filterMap (fun r => r.out.usableData)

/-- What one cycle under the command `i` with the outputs `o` leaves around the block: the parameter and the waiting
commands are untouched, the cycle number advances by exactly 1 (10_state.md R20), `get_data` used a draw up unless a
get succeeded (42_get.md R70), the cycle is on record, and the status outputs it showed are those of the start state
(43_size_flags.md R73). The frame of every command. -/
structure CycleOf (i : Instr) (s t : State) (o : Outputs) : Prop where
  cfg : t.cfg = s.cfg
  commands : t.commands = s.commands
  cycle : t.cycle = s.cycle + 1
  draws : t.draws = if o.getOk then s.draws else s.draws + 1
  history : t.history = { cmd := i, out := o } :: s.history
  count : o.count = s.count
  empty : o.empty = s.empty
  full : o.full = s.full

/-- The block's three parts have the values they had. -/
structure SameBlock (s t : State) : Prop where
  putI : t.putI = s.putI
  getI : t.getI = s.getI
  mem : t.block.mem = s.block.mem

/-- What an observer at the ports may rely on of one cycle: the command, the results, the byte where a get succeeded,
and the status outputs; not the draw on `get_data` (70_reset_and_hazards.md R110). -/
structure Observation where
  cmd : Instr
  putOk : Bool
  getOk : Bool
  data : Option Byte
  empty : Bool
  full : Bool
  count : Nat
deriving DecidableEq, Repr

/-- The observation of a recorded cycle. -/
def CycleRecord.observation (r : CycleRecord) : Observation :=
  { cmd := r.cmd, putOk := r.out.putOk, getOk := r.out.getOk, data := r.out.usableData
    empty := r.out.empty, full := r.out.full, count := r.out.count }

end Sys2Proof.Machine
end

