-- ==== Sys2Proof/Certificates/Slice0/Obligations.lean ====
section
/-!
DEFINITION. The statements for the provers. Each one's docstring says which rule of the spec it formalises; where the
spec marks a rule as its own inference ([derived: ...]) or the statement rests on a choice of the model, it says so.
Every statement holds for every capacity `N >= 1`, since the parameter stands in the state.
-/

open Sys2Proof Sys2Proof.Machine

/-! ### INIT and NOP -/

/-- 40_init.md R56: INIT's encoding, its outputs, its effect, and the flags of the next cycle; the storage is not
touched, and the frame is `CycleOf`. INIT on an empty FIFO and INIT twice are among its states. -/
def Obligations.InitEmptiesTheFifo : Prop :=
  (∀ w : CmdWord, w &&& 0x400#11 = 0x400#11 → decodeWord w = .init) ∧
  ∀ s : State, ∃ t o, exec .init s = .next t ∧ CycleOf .init s t o ∧
    o.putOk = false ∧ o.getOk = false ∧
    t.putI = 0 ∧ t.getI = 0 ∧ t.block.mem = s.block.mem ∧
    t.empty = true ∧ t.full = false ∧ t.count = 0

/-- 40_init.md R57, R58 (the spec's decisions D10 to D12): in a cycle whose word has `rst = 1`, the indices become 0
whatever they were and whatever the other bits are, no storage byte is written, and a requested put or get fails. -/
def Obligations.ResetWordOverridesPutAndGet : Prop :=
  ∀ s : State, s.portWord.getLsbD 10 = true →
    ∃ t o, step s = .next t ∧ t.cfg = s.cfg ∧ t.commands = s.commands.tail ∧
      t.history = { cmd := .init, out := o } :: s.history ∧ o.putOk = false ∧ o.getOk = false ∧
      t.putI = 0 ∧ t.getI = 0 ∧ t.block.mem = s.block.mem

/-- 40_init.md R59, which the spec marks [derived: from R57 and R24]: INIT discards the contents; under every stream
without a later INIT, the first byte got after it is the first byte put after it; and one put and one get do get it. -/
def Obligations.InitDiscardsTheContents : Prop :=
  ∀ s : State, s.wf = true →
    (∃ t, exec .init s = .next t ∧ t.contents = []) ∧
    (∀ is : List Instr, noInit is = true → ∃ t, execAll (.init :: is) s = .next t ∧
      ∀ g, (usableBytes (t.history.take is.length)).head? = some g → (is.filterMap putByte).head? = some g) ∧
    ∀ d : Byte, ∃ t, execAll [.init, .put d, .get] s = .next t ∧ usableBytes (t.history.take 3) = [d] ∧ t.contents = []

/-- 40_init.md R60: every word of NOP, its outputs, and that nothing of the block changes, the flags included. -/
def Obligations.NopChangesNothing : Prop :=
  (∀ w : CmdWord, w &&& 0x700#11 = 0x000#11 → decodeWord w = .nop) ∧
  ∀ s : State, ∃ t o, exec .nop s = .next t ∧ CycleOf .nop s t o ∧ SameBlock s t ∧
    o.putOk = false ∧ o.getOk = false ∧
    t.empty = s.empty ∧ t.full = s.full ∧ t.count = s.count

/-! ### PUT, GET, PUTGET -/

/-- 41_put.md R61: every word of PUT and its byte; on a FIFO that is not full the byte is stored at the put index and
the index advances modulo `C`; on a full one nothing changes; GetI never changes; the flags of the next cycle. -/
def Obligations.PutStoresTheByteOrFails : Prop :=
  (∀ d : Byte, decodeWord (0x200#11 ||| d.setWidth 11) = .put d) ∧
  ∀ (s : State) (d : Byte), s.wf = true → ∃ t o, exec (.put d) s = .next t ∧ CycleOf (.put d) s t o ∧
    o.putOk = !s.full ∧ (s.full = true ↔ s.count = s.capacity - 1) ∧ o.getOk = false ∧ t.getI = s.getI ∧
    (s.full = true → SameBlock s t) ∧
    (s.full = false →
      t.putI = (s.putI + 1) % s.capacity ∧
      t.block.mem.read s.putI = d ∧
      (∀ a, a ≠ s.putI → t.block.mem.read a = s.block.mem.read a) ∧
      t.count = s.count + 1 ∧ t.empty = false ∧ (t.full = true ↔ s.count = s.capacity - 2))

/-- 42_get.md R67: every word of GET; on a FIFO that is not empty the byte at the get index is shown in the same cycle
and the index advances modulo `C`; on an empty one nothing changes and `get_data` is not stated; PutI and the storage
never change; the flags of the next cycle. -/
def Obligations.GetTakesTheOldestByteOrFails : Prop :=
  (∀ w : CmdWord, w &&& 0x700#11 = 0x100#11 → decodeWord w = .get) ∧
  ∀ s : State, ∃ t o, exec .get s = .next t ∧ CycleOf .get s t o ∧
    o.getOk = !s.empty ∧ (s.empty = true ↔ s.count = 0) ∧ o.putOk = false ∧ t.putI = s.putI ∧ t.block.mem = s.block.mem ∧
    (s.empty = true → SameBlock s t) ∧
    (s.empty = false →
      o.getData = s.block.mem.read s.getI ∧
      t.getI = (s.getI + 1) % s.capacity ∧
      t.count + 1 = s.count ∧ t.full = false ∧ (t.empty = true ↔ s.count = 1))

/-- 44_put_get.md R80 (the spec's decision D9), its pseudocode and flags: both operations are judged on the start state;
the three cases of the start count; never two failures. -/
def Obligations.PutgetJudgesBothOnTheStartState : Prop :=
  (∀ d : Byte, decodeWord (0x300#11 ||| d.setWidth 11) = .putget d) ∧
  ∀ (s : State) (d : Byte), s.wf = true → ∃ t o, exec (.putget d) s = .next t ∧ CycleOf (.putget d) s t o ∧
    o.putOk = !s.full ∧ o.getOk = !s.empty ∧ (o.putOk = true ∨ o.getOk = true) ∧
    t.putI = (if s.full then s.putI else (s.putI + 1) % s.capacity) ∧
    t.getI = (if s.empty then s.getI else (s.getI + 1) % s.capacity) ∧
    (s.empty = false → o.getData = s.block.mem.read s.getI) ∧
    (s.full = false → t.block.mem.read s.putI = d) ∧
    (∀ a, s.full = true ∨ a ≠ s.putI → t.block.mem.read a = s.block.mem.read a) ∧
    (s.count = 0 → o.putOk = true ∧ o.getOk = false ∧ t.count = 1) ∧
    (1 ≤ s.count → s.count ≤ s.capacity - 2 → o.putOk = true ∧ o.getOk = true ∧ t.count = s.count) ∧
    (s.count = s.capacity - 1 → o.putOk = false ∧ o.getOk = true ∧ t.count = s.capacity - 2)

/-! ### The two ports, under every command word -/

/-- 41_put.md R63 (the spec's decisions D7, D9): `put_ok` in every cycle; it does not depend on `get_en`. -/
def Obligations.PutOkIsEnabledAndNotFull : Prop :=
  ∀ s : State, ∃ t o, step s = .next t ∧
    t.history = { cmd := decodeWord s.portWord, out := o } :: s.history ∧
    o.putOk = (s.portWord.getLsbD 9 && !s.portWord.getLsbD 10 && !s.full)

/-- 42_get.md R69 (the spec's decisions D7, D9): `get_ok` in every cycle; it does not depend on `put_en`. -/
def Obligations.GetOkIsEnabledAndNotEmpty : Prop :=
  ∀ s : State, ∃ t o, step s = .next t ∧
    t.history = { cmd := decodeWord s.portWord, out := o } :: s.history ∧
    o.getOk = (s.portWord.getLsbD 8 && !s.portWord.getLsbD 10 && !s.empty)

/-- 41_put.md R64, R65: in every cycle with `put_ok = 1`, whatever the command, the byte goes to the start-of-cycle put
index and to no other slot, that slot was not live, and PutI advances modulo `C`; with `put_ok = 0` and no INIT, PutI
is unchanged. -/
def Obligations.SuccessfulPutWritesOneFreeSlot : Prop :=
  ∀ (i : Instr) (s : State), s.wf = true → ∃ t o, exec i s = .next t ∧ CycleOf i s t o ∧
    (o.putOk = true → ∃ d, putByte i = some d ∧
      t.block.mem.read s.putI = d ∧
      (∀ a, a ≠ s.putI → t.block.mem.read a = s.block.mem.read a) ∧
      s.putI ∉ s.block.liveSlots ∧
      t.putI = (s.putI + 1) % s.capacity) ∧
    (o.putOk = false → i ≠ .init → t.putI = s.putI)

/-- 42_get.md R70, R71 (the spec's decision D8): in every cycle with `get_ok = 1`, whatever the command, `get_data` is
the byte at the get index, the first of the contents, that slot is live, and GetI advances modulo `C`; with
`get_ok = 0` and no INIT, GetI is unchanged, and nothing is stated of `get_data`. -/
def Obligations.SuccessfulGetShowsTheOldestByte : Prop :=
  ∀ (i : Instr) (s : State), ∃ t o, exec i s = .next t ∧ CycleOf i s t o ∧
    (o.getOk = true →
      o.getData = s.block.mem.read s.getI ∧ s.contents.head? = some o.getData ∧ s.getI ∈ s.block.liveSlots ∧
      t.getI = (s.getI + 1) % s.capacity) ∧
    (o.getOk = false → i ≠ .init → t.getI = s.getI)

/-- 41_put.md R66: a requested put fails exactly when the occupancy is `C - 1` or the cycle is an INIT; a failed put of
any other cycle leaves PutI and the storage as they were, and GetI too when no get was requested. -/
def Obligations.FailedPutChangesNothing : Prop :=
  ∀ s : State, s.portWord.getLsbD 9 = true →
    ∃ t o, step s = .next t ∧ t.history = { cmd := decodeWord s.portWord, out := o } :: s.history ∧
      (o.putOk = false ↔ s.count = s.capacity - 1 ∨ s.portWord.getLsbD 10 = true) ∧
      (o.putOk = false → s.portWord.getLsbD 10 = false →
        t.putI = s.putI ∧ t.block.mem = s.block.mem ∧ (s.portWord.getLsbD 8 = false → t.getI = s.getI))

/-- 42_get.md R72: a requested get fails exactly when the occupancy is 0 or the cycle is an INIT; a failed get of any
other cycle leaves GetI as it was, and PutI and the storage too when no put was requested. -/
def Obligations.FailedGetChangesNothing : Prop :=
  ∀ s : State, s.portWord.getLsbD 8 = true →
    ∃ t o, step s = .next t ∧ t.history = { cmd := decodeWord s.portWord, out := o } :: s.history ∧
      (o.getOk = false ↔ s.count = 0 ∨ s.portWord.getLsbD 10 = true) ∧
      (o.getOk = false → s.portWord.getLsbD 10 = false →
        t.getI = s.getI ∧ (s.portWord.getLsbD 9 = false → t.putI = s.putI ∧ t.block.mem = s.block.mem))

/-- 44_put_get.md R81 (the spec's decision D9): no bypass either way. On an empty FIFO the get of a PUTGET fails, on a
full one its put fails; each side's success and its own register are the same with and without the other side. -/
def Obligations.NoBypassInEitherDirection : Prop :=
  ∀ (s : State) (d : Byte), ∃ t o tp op tg og,
    exec (.putget d) s = .next t ∧ CycleOf (.putget d) s t o ∧
    exec (.put d) s = .next tp ∧ CycleOf (.put d) s tp op ∧
    exec .get s = .next tg ∧ CycleOf .get s tg og ∧
    (s.empty = true → o.getOk = false) ∧ (s.full = true → o.putOk = false) ∧
    o.putOk = op.putOk ∧ o.getOk = og.getOk ∧
    t.putI = tp.putI ∧ t.block.mem = tp.block.mem ∧ t.getI = tg.getI ∧ o.usableData = og.usableData

/-- 44_put_get.md R82, which the spec marks [derived: from R80 and R25]: when both operations of a cycle succeed they
touch different slots, the one written not live and the one read live. -/
def Obligations.SameCycleAccessesAreDisjoint : Prop :=
  ∀ (s : State) (d : Byte), s.full = false → s.empty = false → s.wf = true →
    ∃ t o, exec (.putget d) s = .next t ∧ CycleOf (.putget d) s t o ∧ o.putOk = true ∧ o.getOk = true ∧
      s.putI ≠ s.getI ∧ s.putI ∉ s.block.liveSlots ∧ s.getI ∈ s.block.liveSlots ∧
      (∀ a, t.block.mem.read a = if a = s.putI then d else s.block.mem.read a) ∧
      t.block.mem.read s.getI = o.getData

/-- 44_put_get.md R83, which the spec marks [derived: from R82]: the put's writes and the get's may be done in either
order; the byte got is the same before and after the put's write. -/
def Obligations.SameCyclePutAndGetCommute : Prop :=
  ∀ (s : State) (d : Byte), s.full = false → s.empty = false → s.wf = true →
    (s.block.store d).advanceGet = s.block.advanceGet.store d ∧
    (s.block.store d).front = s.block.front ∧
    exec (.putget d) s =
      .next (s.endCycle (.putget d) true (some (s.block.store d).front) (s.block.store d).advanceGet)

/-! ### The cycle function -/

/-- 44_put_get.md R84 (the spec's decisions D1, D7 to D10): under every command word the step is the one cycle function
of the start state and the raw inputs, whose own text is `Sys2Proof.Machine.cycle`; the meanings of the five commands
are its cases. The draw on `get_data` may be any value. -/
def Obligations.CycleFunctionGivesEveryCommand : Prop :=
  ∀ s : State, ∃ any, step s = .next
    { cfg := s.cfg
      block := (cycle s.block (Inputs.ofWord s.portWord) any).1
      commands := s.commands.tail
      cycle := s.cycle + 1
      draws := if (cycle s.block (Inputs.ofWord s.portWord) any).2.getOk then s.draws else s.draws + 1
      history :=
        { cmd := decodeWord s.portWord, out := (cycle s.block (Inputs.ofWord s.portWord) any).2 } :: s.history }

/-- 60_exceptions.md R91: no command and no state makes the block trap, fault, stop or become stuck; every cycle takes
exactly one step of the cycle number. -/
def Obligations.EveryCycleCompletes : Prop :=
  (∀ (i : Instr) (s : State), Completes (exec i s)) ∧
  ∀ s : State, ∃ t, step s = .next t ∧ t.cfg = s.cfg ∧ t.cycle = s.cycle + 1 ∧ t.commands = s.commands.tail

/-- 30_encoding.md R46, R51: a step applies the command that the word on the ports decodes to. That an empty list is
the NOP command is the model's choice (assumption 3). -/
def Obligations.StepRunsTheWordOnThePorts : Prop :=
  (∀ (s : State) (w : CmdWord) (rest : List CmdWord), s.commands = w :: rest →
    step s = exec (decodeWord w) { s with commands := rest }) ∧
  ∀ s : State, s.commands = [] → step s = exec .nop s

/-! ### Status outputs -/

/-- 43_size_flags.md R74, R75, R76: the occupancy as a wrap-around difference, and the two flags by the indices and by
the occupancy. -/
def Obligations.StatusOutputsFollowTheIndices : Prop :=
  ∀ s : State,
    s.count = (s.putI + s.capacity - s.getI) % s.capacity ∧ s.count ≤ s.capacity - 1 ∧
    (s.empty = true ↔ s.putI = s.getI) ∧ (s.empty = true ↔ s.count = 0) ∧
    (s.full = true ↔ (s.putI + 1) % s.capacity = s.getI) ∧ (s.full = true ↔ s.count = s.capacity - 1)

/-- 43_size_flags.md R78, which the spec marks [derived: from R74 to R76, R63 and R69]: the rows of its table, the put
alone and the get alone, and what is left of it for `N = 1`. -/
def Obligations.StatusTableHoldsForEveryCapacity : Prop :=
  ∀ (s : State) (d : Byte), ∃ tp op tg og,
    exec (.put d) s = .next tp ∧ CycleOf (.put d) s tp op ∧ exec .get s = .next tg ∧ CycleOf .get s tg og ∧
    (s.count = 0 → s.empty = true ∧ s.full = false ∧ op.putOk = true ∧ og.getOk = false) ∧
    (1 ≤ s.count → s.count ≤ s.capacity - 2 →
      s.empty = false ∧ s.full = false ∧ op.putOk = true ∧ og.getOk = true) ∧
    (s.count = s.capacity - 1 → s.empty = false ∧ s.full = true ∧ op.putOk = false ∧ og.getOk = true) ∧
    ¬(s.empty = true ∧ s.full = true) ∧
    (s.cfg.logCap = 1 → s.full = !s.empty) ∧
    s.block.freeSpace = s.capacity - 1 - s.count

/-- 43_size_flags.md R73 (the spec's decision D6): `count`, `empty` and `full` are functions of the start-of-cycle
indices alone: not of the command, nor of the storage. -/
def Obligations.StatusOutputsIgnoreCommandAndStorage : Prop :=
  ∀ (s u : State) (i j : Instr), s.cfg = u.cfg → s.putI = u.putI → s.getI = u.getI →
    ∃ t o v p, exec i s = .next t ∧ CycleOf i s t o ∧ exec j u = .next v ∧ CycleOf j u v p ∧
      o.count = p.count ∧ o.empty = p.empty ∧ o.full = p.full

/-- 43_size_flags.md R79, which the spec marks [derived: from R74 to R76]: wide counters masked by `C - 1` give the
same outputs as the `N`-bit registers, for every width `W >= N`. -/
def Obligations.MaskedCountersGiveTheSameOutputs : Prop :=
  ∀ (N W : Nat) (k : Counters W) (m : Memory), 1 ≤ N → N ≤ W →
    (k.count N).toNat = (k.toBlock N m).count.toNat ∧
    k.empty N = (k.toBlock N m).empty ∧ k.full N = (k.toBlock N m).full

/-- 30_encoding.md R49 (the spec's decisions D5, D7, D8): where the fields of `STAT` and `RES` stand. -/
def Obligations.OutputWordsHaveTheirFields : Prop :=
  (∀ s : State,
    s.block.statWord.getLsbD (s.cfg.logCap + 1) = s.full ∧
    s.block.statWord.getLsbD s.cfg.logCap = s.empty ∧
    s.block.statWord.toNat % s.capacity = s.count) ∧
  ∀ o : Outputs, o.resWord.getLsbD 9 = o.putOk ∧ o.resWord.getLsbD 8 = o.getOk ∧ o.resWord.extractLsb' 0 8 = o.getData

/-! ### State, reset, invariants -/

/-- 10_state.md R25, which the spec marks [derived: from R24]: for every state, the occupancy is below `C`, the live
slots are `count` distinct indices, the put slot is never live, and when the FIFO is full it is the only one. -/
def Obligations.LiveSlotsAreDistinctAndSpareThePutSlot : Prop :=
  ∀ s : State, s.count ≤ s.capacity - 1 ∧
    s.block.liveSlots.length = s.count ∧ s.block.liveSlots.Nodup ∧ (∀ a ∈ s.block.liveSlots, a < s.capacity) ∧
    s.putI ∉ s.block.liveSlots ∧
    (s.count = s.capacity - 1 → ∀ a, a < s.capacity → a ≠ s.putI → a ∈ s.block.liveSlots)

/-- 10_state.md R27 and R28 (which the spec marks [derived]): a block of any capacity right after reset, and what its
status outputs show. The first clause is no rule of the spec: that `State.reset` is the block of `N = 2` is the model's
choice (assumption 1). That the reset state lists no byte, and its cycle number, are the model's choices (assumptions 7
and 8), and nothing is stated of them. -/
def Obligations.ResetStateIsEmpty : Prop :=
  State.reset = State.resetOf Config.exampleSize ∧
  ∀ cfg : Config, (State.resetOf cfg).putI = 0 ∧ (State.resetOf cfg).getI = 0 ∧
    (State.resetOf cfg).empty = true ∧ (State.resetOf cfg).full = false ∧ (State.resetOf cfg).count = 0 ∧
    (State.resetOf cfg).contents = []

/-- 70_reset_and_hazards.md R104: after any cycle with `rst = 1` the state is the reset state, the storage aside, which
is unchanged; the outputs of the next cycle, whatever its command. -/
def Obligations.AnyResetCycleGivesTheResetState : Prop :=
  ∀ (s : State) (j : Instr), s.portWord.getLsbD 10 = true →
    ∃ t, step s = .next t ∧ t.putI = 0 ∧ t.getI = 0 ∧ t.block.mem = s.block.mem ∧ t.contents = [] ∧
      ∃ u o, exec j t = .next u ∧ CycleOf j t u o ∧ o.empty = true ∧ o.full = false ∧ o.count = 0 ∧
        o.putOk = (putByte j).isSome ∧ o.getOk = false

/-- 10_state.md R29, 70_reset_and_hazards.md R105 (the spec's decision D13): the block runs on every power-up draw, its
first outputs are functions of the drawn values, and a first cycle with INIT reaches the reset state from any draw. -/
def Obligations.EveryPowerUpDrawRunsAndResets : Prop :=
  ∀ (cfg : Config) (draw : Block cfg.logCap) (i : Instr),
    (∃ t o, exec i (State.powerUp cfg draw) = .next t ∧ CycleOf i (State.powerUp cfg draw) t o ∧
      o.count = draw.count.toNat ∧ o.empty = draw.empty ∧ o.full = draw.full) ∧
    ∃ t, exec .init (State.powerUp cfg draw) = .next t ∧ t.cfg = cfg ∧
      t.putI = 0 ∧ t.getI = 0 ∧ t.block.mem = draw.mem ∧ t.contents = []

/-- 70_reset_and_hazards.md R106, R111, 10_state.md R29: under a stream that resets the block before its first put or
get, the results of every cycle are the same whatever was drawn at power-up. -/
def Obligations.PowerUpDrawIsNotSeenAfterReset : Prop :=
  ∀ (is : List Instr) (cfg : Config) (draw other : Block cfg.logCap), draw.wf = true → other.wf = true →
    resetBeforeUse is = true →
    ∃ t v, execAll is (State.powerUp cfg draw) = .next t ∧ execAll is (State.powerUp cfg other) = .next v ∧
      t.history.map CycleRecord.results = v.history.map CycleRecord.results ∧ t.history.length = is.length

/-- 00_scope.md R6, 20_memory.md R30: the storage keeps its canonical form and lists only slots `0 .. C-1` of the
block. The canonical form is the model's own (assumption 7). -/
def Obligations.EveryStepKeepsTheStorageForm : Prop :=
  ∀ s t : State, s.wf = true → step s = .next t → t.wf = true

/-- The storage of the state after reset has the form, for every capacity (assumption 7). -/
def Obligations.ResetStorageHasTheForm : Prop :=
  ∀ cfg : Config, (State.resetOf cfg).wf = true

/-- 10_state.md R18, R15 to R17: in every cycle, PutI and the storage change only on behalf of a producer's put, GetI
only on behalf of a consumer's get, INIT aside, which writes both indices and no storage. -/
def Obligations.EachIndexHasOneWriter : Prop :=
  ∀ (i : Instr) (s : State), ∃ t o, exec i s = .next t ∧ CycleOf i s t o ∧
    (t.putI ≠ s.putI → i = .init ∨ ((∃ d, putByte i = some d) ∧ o.putOk = true)) ∧
    (t.getI ≠ s.getI → i = .init ∨ (requestsGet i = true ∧ o.getOk = true)) ∧
    (t.block.mem ≠ s.block.mem → (∃ d, putByte i = some d) ∧ o.putOk = true) ∧
    (i = .init → t.putI = 0 ∧ t.getI = 0)

/-! ### The FIFO laws -/

/-- 44_put_get.md R85, which the spec marks [derived: from R84 and R24]: every command's effect on the contents and its
results are those of the table, whose own text is `queueStep`; and the outputs of R86 are functions of the contents. -/
def Obligations.ContentsFollowTheQueueTable : Prop :=
  ∀ (i : Instr) (s : State), s.wf = true → ∃ t o, exec i s = .next t ∧ CycleOf i s t o ∧
    t.contents = (queueStep s.capacity i s.contents).after ∧
    o.putOk = (queueStep s.capacity i s.contents).putOk ∧
    o.usableData = (queueStep s.capacity i s.contents).got ∧
    o.count = s.contents.length ∧
    (o.empty = true ↔ s.contents.length = 0) ∧ (o.full = true ↔ s.contents.length = s.capacity - 1)

/-- 44_put_get.md R86, which the spec marks [derived: from R85]: two blocks of one capacity with the same contents show
the same under every command stream, whatever their indices and stale bytes. The draws on `get_data` are not compared
(70_reset_and_hazards.md R110). -/
def Obligations.SameContentsShowTheSame : Prop :=
  ∀ (is : List Instr) (s u : State), s.wf = true → u.wf = true → s.cfg = u.cfg → s.contents = u.contents →
    ∃ t v, execAll is s = .next t ∧ execAll is u = .next v ∧ t.contents = v.contents ∧
      (t.history.take is.length).map CycleRecord.observation = (v.history.take is.length).map CycleRecord.observation ∧
      (t.history.take is.length).length = is.length

/-- 44_put_get.md R87, which the spec marks [derived: from R85]: after a reset and any stream without a later INIT, the
occupancy is the number of successful puts less that of successful gets, and it is in `0 .. C-1`. -/
def Obligations.OccupancyIsPutsMinusGets : Prop :=
  ∀ (s : State) (is : List Instr), s.wf = true → noInit is = true →
    ∃ t, execAll (.init :: is) s = .next t ∧
      t.count + (t.history.take is.length).countP (fun r => r.out.getOk) =
        (t.history.take is.length).countP (fun r => r.out.putOk) ∧
      t.count ≤ t.capacity - 1

/-- 44_put_get.md R88, which the spec marks [derived: from R85 and R81]: after a reset, whatever stream follows, the
bytes got since the last INIT are the first of the bytes accepted since then, in order, and the rest are the contents:
none is lost, duplicated or reordered. -/
def Obligations.FifoOrderAfterReset : Prop :=
  ∀ (s : State) (is : List Instr), s.wf = true →
    ∃ t, execAll (.init :: is) s = .next t ∧
      acceptedBytes t.history = gotBytes t.history ++ t.contents

/-- 44_put_get.md R88 as an invariant of one state, kept by every step from every state that has it (not only from
states a run reaches). -/
def Obligations.EveryStepKeepsTheFifoLaw : Prop :=
  ∀ s t : State, s.wf = true → FifoInv s → step s = .next t → t.wf = true ∧ FifoInv t

/-- The FIFO law holds right after reset, for every capacity. That nothing is on record then is the model's choice
(assumption 5). -/
def Obligations.FifoLawHoldsAtReset : Prop :=
  ∀ cfg : Config, FifoInv (State.resetOf cfg)

/-- 44_put_get.md R88's clause "the `i`-th successful get is in a later cycle than the `i`-th successful put", with R81:
what was got when a cycle ends was accepted before that cycle began. -/
def Obligations.ByteIsGotInALaterCycle : Prop :=
  ∀ s t : State, s.wf = true → FifoInv s → step s = .next t → gotBytes t.history <+: acceptedBytes s.history

/-- 44_put_get.md R89, which the spec marks [derived: from R81 and R88]: a byte put behind `j` live bytes is got by the
`j + 1`-th of the gets that follow, after those bytes in their order, and no get of them fails. -/
def Obligations.ByteIsGotAfterTheBytesBeforeIt : Prop :=
  ∀ (s : State) (d : Byte), s.wf = true → s.full = false →
    ∃ t, execAll (.put d :: List.replicate (s.count + 1) .get) s = .next t ∧
      usableBytes (t.history.take (s.count + 1)) = s.contents ++ [d] ∧ t.contents = [] ∧
      t.cycle = s.cycle + s.count + 2

/-- 70_reset_and_hazards.md R115, 00_scope.md R7: `C - 1` puts into an empty FIFO all succeed, and the `C`-th, with no
get between, fails and leaves them. -/
def Obligations.TheCapacityThPutFails : Prop :=
  ∀ (s : State) (ds : List Byte) (d : Byte), s.wf = true → s.empty = true → ds.length = s.capacity - 1 →
    ∃ t, execAll (ds.map .put) s = .next t ∧ t.contents = ds ∧
      (∀ r ∈ t.history.take ds.length, r.out.putOk = true) ∧
      ∃ u o, exec (.put d) t = .next u ∧ CycleOf (.put d) t u o ∧ o.putOk = false ∧ u.contents = ds

/-- 20_memory.md R42, its first half, which the spec marks [derived]: the consumer that sees `count = k` has its next
`k` gets succeed, whatever the producer does. -/
def Obligations.GetsWithinTheOccupancySucceed : Prop :=
  ∀ (is : List Instr) (s : State), s.wf = true → noInit is = true → is.countP requestsGet ≤ s.count →
    ∃ t, execAll is s = .next t ∧
      ∀ r ∈ t.history.take is.length, requestsGet r.cmd = true → r.out.getOk = true

/-- 20_memory.md R42, its second half, which the spec marks [derived]: the producer that sees `count = k` has its next
`C - 1 - k` puts succeed, whatever the consumer does. -/
def Obligations.PutsWithinTheFreeSpaceSucceed : Prop :=
  ∀ (is : List Instr) (s : State), s.wf = true → noInit is = true →
    is.countP (fun i => (putByte i).isSome) ≤ s.capacity - 1 - s.count →
    ∃ t, execAll is s = .next t ∧
      ∀ r ∈ t.history.take is.length, (putByte r.cmd).isSome = true → r.out.putOk = true

/-- 70_reset_and_hazards.md R112, which the spec marks [derived: from R42 and R59]: the other side can only increase the
margin a side sees; INIT is the exception and is left out. -/
def Obligations.TheOtherSideOnlyAddsMargin : Prop :=
  ∀ (i : Instr) (s : State), i ≠ .init → ∃ t, exec i s = .next t ∧
    (requestsGet i = false → s.count ≤ t.count) ∧
    (putByte i = none → s.block.freeSpace ≤ t.block.freeSpace)

/-- 44_put_get.md R80's corner case: a stream of PUTGETs on a FIFO with `count = k`, `1 <= k <= C - 2`, keeps the count
and "delays each byte by exactly `k` cycles": what comes out is the old contents and then the stream itself. -/
def Obligations.PutgetStreamDelaysByTheCount : Prop :=
  ∀ (ds : List Byte) (s : State), s.wf = true → 1 ≤ s.count → s.count ≤ s.capacity - 2 →
    ∃ t, execAll (ds.map .putget) s = .next t ∧ t.count = s.count ∧
      usableBytes (t.history.take ds.length) = (s.contents ++ ds).take ds.length ∧
      t.contents = (s.contents ++ ds).drop ds.length

/-- 20_memory.md R43: the block guarantees no progress: a put on a full FIFO fails in every cycle while the consumer
does not get, and a get on an empty one in every cycle while the producer does not put. -/
def Obligations.RetriesAloneFailForever : Prop :=
  ∀ (s : State) (d : Byte) (n : Nat),
    (s.full = true → ∃ t, execAll (List.replicate n (.put d)) s = .next t ∧ SameBlock s t ∧ t.full = true ∧
      (t.history.take n).length = n ∧ ∀ r ∈ t.history.take n, r.out.putOk = false) ∧
    (s.empty = true → ∃ t, execAll (List.replicate n .get) s = .next t ∧ SameBlock s t ∧ t.empty = true ∧
      (t.history.take n).length = n ∧ ∀ r ∈ t.history.take n, r.out.getOk = false)

/-! ### Failures and agents -/

/-- 60_exceptions.md R90, R94: the failures of a cycle are what its two results report. PUT_FULL is `put_ok = 0` with
`put_en = 1`, `rst = 0`, and it is reported exactly when the start state is full; GET_EMPTY likewise by `get_ok` and
`empty`; in an INIT every request is discarded with its result 0. At most one failure for each port, and never two
outside INIT. -/
def Obligations.FailuresAreTheTwoResults : Prop :=
  ∀ (s : State) (p : Inputs), p = Inputs.ofWord s.portWord →
    ∃ t o, step s = .next t ∧ t.history = { cmd := decodeWord s.portWord, out := o } :: s.history ∧
      (Failure.putFull ∈ failures s.block p ↔ p.putEn = true ∧ p.rst = false ∧ o.putOk = false) ∧
      (Failure.putFull ∈ failures s.block p ↔ p.putEn = true ∧ p.rst = false ∧ s.full = true) ∧
      (Failure.getEmpty ∈ failures s.block p ↔ p.getEn = true ∧ p.rst = false ∧ o.getOk = false) ∧
      (Failure.getEmpty ∈ failures s.block p ↔ p.getEn = true ∧ p.rst = false ∧ s.empty = true) ∧
      (Failure.putDiscarded ∈ failures s.block p ↔ p.putEn = true ∧ p.rst = true) ∧
      (Failure.getDiscarded ∈ failures s.block p ↔ p.getEn = true ∧ p.rst = true) ∧
      (p.rst = true → o.putOk = false ∧ o.getOk = false) ∧
      (failures s.block p).countP Failure.isPuts ≤ 1 ∧
      (failures s.block p).countP (fun f => !f.isPuts) ≤ 1 ∧
      (p.rst = false → (failures s.block p).length ≤ 1)

/-- 60_exceptions.md R99, 70_reset_and_hazards.md R108: one port is driven by at most one context in a cycle, whichever
port it is (`α` is `Byte` for the producer's and `Unit` for the consumer's and the initializer's). Two contexts that
act at once are outside the spec; that they are refused by name is the model's reading (assumption 12). -/
def Obligations.TwoDriversOfOnePortAreRefused : Prop :=
  ∀ (α : Type) (l : List (Option α)),
    (drivePort l = .error .portContention ↔ 2 ≤ l.countP Option.isSome) ∧
    (∀ d, drivePort l = .ok (some d) ↔ some d ∈ l ∧ l.countP Option.isSome = 1) ∧
    (drivePort l = .ok none ↔ ∀ r ∈ l, r = none)

/-- 30_encoding.md R55, PUTWAIT: on a full FIFO the retry fails in the cycle in which the consumer gets and succeeds in
the next one, when the operation ends, the byte put exactly once. The agents are the environment of the block. -/
def Obligations.PutWaitEndsAfterTheConsumerGets : Prop :=
  ∀ (y : System) (d : Byte) (ps : List ProducerOp), y.state.wf = true → y.state.full = true →
    y.producer = .putWait d :: ps → y.consumer = [.get] → y.initializer = [] →
    (∃ z, y.step = .next z ∧ z.producer = .putWait d :: ps ∧ z.state.contents = y.state.contents.tail) ∧
    ∃ z, y.run 2 = .next z ∧ z.producer = ps ∧ z.consumer = [] ∧ z.state.contents = y.state.contents.tail ++ [d]

/-- 30_encoding.md R55, GETWAIT: on an empty FIFO the retry fails in the cycle in which the producer puts and succeeds
in the next one, with that byte. -/
def Obligations.GetWaitEndsAfterTheProducerPuts : Prop :=
  ∀ (y : System) (d : Byte) (cs : List ConsumerOp), y.state.wf = true → y.state.empty = true →
    y.producer = [.put d] → y.consumer = .getWait :: cs → y.initializer = [] →
    (∃ z, y.step = .next z ∧ z.consumer = .getWait :: cs ∧ z.state.contents = [d]) ∧
    ∃ z, y.run 2 = .next z ∧ z.consumer = cs ∧ z.producer = [] ∧ z.state.contents = [] ∧
      usableBytes (z.state.history.take 2) = [d]

/-- 70_reset_and_hazards.md R114: a PUTWAIT on a full FIFO with an idle consumer and no INIT never ends, and neither
does a GETWAIT on an empty one with an idle producer. An INIT ends the producer's wait one cycle later and does not
end the consumer's. -/
def Obligations.WaitsAreUnbounded : Prop :=
  ∀ (y : System) (d : Byte) (ps : List ProducerOp) (cs : List ConsumerOp) (n : Nat), y.state.wf = true →
    (y.state.full = true → y.producer = .putWait d :: ps → y.consumer = [] →
      (y.initializer = [] → ∃ z, y.run n = .next z ∧ z.producer = .putWait d :: ps ∧ z.state.full = true) ∧
      (y.initializer = [true] → ∃ z, y.run 2 = .next z ∧ z.producer = ps ∧ z.state.contents = [d])) ∧
    (y.state.empty = true → y.producer = [] → y.consumer = .getWait :: cs →
      ∃ z, y.run n = .next z ∧ z.consumer = .getWait :: cs ∧ z.state.empty = true)

/-! ### Encoding -/

/-- Every command's canonical word, and its bytes with anything behind them, decode to that command with its byte. The
layout of a word as two bytes is the model's choice (assumption 6). -/
def Obligations.DecodeReversesEncode : Prop :=
  ∀ (i : Instr) (rest : List Byte), i.wf = true →
    decodeWord (encodeWord i) = i ∧ decodeBytes (encodeBytes i ++ rest) = .ok (i, rest) ∧
    decodeTableWord 16 (encodeWord i).toNat = some i

/-- 30_encoding.md R50 (the spec's decisions D14, D30): each of the 2048 words matches exactly one row of the map, and
it is the row of the command the word decodes to. -/
def Obligations.EveryWordMatchesExactlyOneRow : Prop :=
  ∀ w : CmdWord, ∃ r ∈ opcodeTable, r.accepts w = true ∧ r.mnemonic = (decodeWord w).mnemonic ∧
    ∀ q ∈ opcodeTable, q.accepts w = true → q = r

/-- 30_encoding.md R52 (the spec's decisions D10, D14): no word is illegal, and the bits a command ignores do not change
it: a word and its canonical spelling decode to the same command, which encodes to that spelling; a word with `R = 1`
is an INIT whatever `P`, `G` and `D` are. -/
def Obligations.IgnoredBitsDoNotMatter : Prop :=
  ∀ w : CmdWord, decodeWord (canonicalWord w) = decodeWord w ∧ encodeWord (decodeWord w) = canonicalWord w ∧
    (decodeWord w).wf = true ∧ (w.getLsbD 10 = true → decodeWord w = .init)

/-- 30_encoding.md R47 (the spec's decision D14): the word is the concatenation of the four inputs, `rst` in bit 10,
`put_en` in bit 9, `get_en` in bit 8 and `put_data` in bits 7 to 0, and no bit is lost either way. -/
def Obligations.PortsAndWordAgree : Prop :=
  ∀ (p : Inputs) (w : CmdWord),
    p.toWord.getLsbD 10 = p.rst ∧ p.toWord.getLsbD 9 = p.putEn ∧ p.toWord.getLsbD 8 = p.getEn ∧
    p.toWord.extractLsb' 0 8 = p.putData ∧ Inputs.ofWord p.toWord = p ∧ (Inputs.ofWord w).toWord = w

/-- 60_exceptions.md R97: what the three agents' requests make of a cycle: the initializer overrides, and otherwise the
producer's and the consumer's requests together name the command. -/
def Obligations.AgentsRequestsNameTheCommand : Prop :=
  ∀ (rst get : Bool) (put : Option Byte),
    (mergeRequests rst put get).command =
      match rst, put, get with
      | true, _, _ => .init
      | false, none, false => .nop
      | false, none, true => .get
      | false, some d, false => .put d
      | false, some d, true => .putget d

/-- Words written out from 30_encoding.md R50 and the programs of 95_test_vectors.md (a sanity statement). -/
def Obligations.WordsOfTheSpecDecode : Prop :=
  decodeWord 0b00000000000#11 = .nop ∧ decodeWord 0x0FF#11 = .nop ∧
  decodeWord 0b00100000000#11 = .get ∧ decodeWord 0x1AB#11 = .get ∧
  decodeWord 0b01001000001#11 = .put 0x41#8 ∧ decodeWord 0x2C3#11 = .put 0xC3#8 ∧
  decodeWord 0b01110100000#11 = .putget 0xA0#8 ∧ decodeWord 0x359#11 = .putget 0x59#8 ∧
  decodeWord 0b10000000000#11 = .init ∧ decodeWord 0x7FF#11 = .init ∧ decodeWord 0x7EE#11 = .init

/-- 30_encoding.md R54, R55: every line written in the syntax is read back as what it says, with the byte, also behind
any decimal cycle label and before a comment; and a byte may be a quoted ASCII character. Which characters are blanks
and where they may stand, the upper-case digits and one blank of a written line, and the range of a quoted character
are the model's choices (assumption 10). -/
def Obligations.WrittenLinesReadBack : Prop :=
  (∀ l : Line, Assembly.parseLine (Assembly.renderLine l) = .ok l) ∧
  (∀ (l : Line) (label front gap back comment : List Char),
    label ≠ [] → (∀ c ∈ label, c.isDigit = true) → (∀ c ∈ front ++ gap ++ back, Assembly.isBlank c = true) →
    Assembly.parseLine
      (front ++ label ++ [':'] ++ gap ++ Assembly.renderLine l ++ back ++ [';'] ++ comment) = .ok l) ∧
  ∀ c : Char, c.toNat < 128 →
    let quoted := [' ', Assembly.quote, c, Assembly.quote]
    Assembly.parseLine (['P', 'U', 'T'] ++ quoted) = .ok (.command (.put (BitVec.ofNat 8 c.toNat))) ∧
    Assembly.parseLine (['P', 'U', 'T', 'G', 'E', 'T'] ++ quoted) =
      .ok (.command (.putget (BitVec.ofNat 8 c.toNat))) ∧
    Assembly.parseLine (['P', 'U', 'T', 'W', 'A', 'I', 'T'] ++ quoted) = .ok (.putWait (BitVec.ofNat 8 c.toNat))

/-- 00_scope.md R6, R7, R10 (the spec's decisions D2, D3): every `N >= 1` is a configuration, with `C = 2^N`, at least one
usable slot and no upper bound, and `a mod C` is `a & MASK`; `N = 0` is refused. -/
def Obligations.OnlyZeroCapacityIsRefused : Prop :=
  configure 0 = .error .noUsableSlot ∧
  ∀ n, 1 ≤ n → ∃ c, configure n = .ok c ∧ c.logCap = n ∧ c.capacity = 2 ^ n ∧ 1 ≤ c.usableCapacity ∧
    ∀ a : Nat, a % c.capacity = a &&& c.mask
end

