-- ==== Sys2Proof/Laws/Assembly.lean ====
section
/-!
SUPPORT. What each part of the reader of lines does with what the writer wrote (spec R54).
-/

namespace Sys2Proof.Machine.Assembly

/-- Blanks in front are passed over. -/
theorem skipBlanks_append {bs : List Char} (h : ∀ c ∈ bs, isBlank c = true) (cs : List Char) :
    skipBlanks (bs ++ cs) = skipBlanks cs := List.dropWhile_append_of_pos h

/-- A decimal label in front is passed over, with the blanks behind it. -/
theorem skipLabel_append {label : List Char} (hne : label ≠ []) (h : ∀ c ∈ label, c.isDigit = true) (cs : List Char) :
    skipLabel (label ++ ':' :: cs) = skipBlanks cs := by
  have ht : (label ++ ':' :: cs).takeWhile Char.isDigit = label := by
    rw [List.takeWhile_append_of_pos h, List.takeWhile_cons_of_neg (by decide), List.append_nil]
  have hd : (label ++ ':' :: cs).dropWhile Char.isDigit = ':' :: cs := by
    rw [List.dropWhile_append_of_pos h, List.dropWhile_cons_of_neg (by decide)]
  obtain ⟨c, l, rfl⟩ := List.exists_cons_of_ne_nil hne
  simp only [skipLabel, ht, hd]

/-- A byte written as `0xHH` is read back. -/
theorem readByte_renderByte (d : Byte) (cs : List Char) : readByte (renderByte d ++ cs) = some (d, cs) := by
  have hex : ∀ n < 16, hexValue (hexDigits.getD n '0') = some n := by decide
  have hlo : d.toNat % 16 < 16 := Nat.mod_lt _ (by omega)
  have hhi : d.toNat / 16 < 16 := by have := d.isLt; omega
  have hd : BitVec.ofNat 8 (16 * (d.toNat / 16) + d.toNat % 16) = d := by
    rw [Nat.div_add_mod, BitVec.ofNat_toNat, BitVec.setWidth_eq]
  have hq : ¬('0' = quote) := by decide
  simp [readByte, renderByte, hq, -List.getD_eq_getElem?_getD, hex _ hlo, hex _ hhi, hd]

/-- A quoted ASCII character is read as its code. -/
theorem readByte_quoted {c : Char} (h : c.toNat < 128) (cs : List Char) :
    readByte (quote :: c :: quote :: cs) = some (BitVec.ofNat 8 c.toNat, cs) := by
  simp [readByte, h]

/-- A comment ends a line, behind any blanks. -/
theorem endLine_comment {bs : List Char} (h : ∀ c ∈ bs, isBlank c = true) (l : Line) (comment : List Char) :
    endLine l (bs ++ ';' :: comment) = .ok l := by
  have hs : skipBlanks (';' :: comment) = ';' :: comment := List.dropWhile_cons_of_neg (by decide)
  simp [endLine, skipBlanks_append h, hs]

end Sys2Proof.Machine.Assembly
end

