-- ==== Sys2Proof/Laws/State.lean ====
section
/-!
SUPPORT. One lemma for each field of each update, true by definition, so that no later proof unfolds a record update.
-/

namespace Sys2Proof.Machine

/-- `C = 2^N`, as the width of the index registers names it (00_scope.md R6). -/
theorem State.capacity_eq (s : State) : s.capacity = 2 ^ s.cfg.logCap := rfl

section endCycle

variable (s : State) (i : Instr) (pok : Bool) (got : Option Byte) (B : Block s.cfg.logCap)

@[simp] theorem State.endCycle_cfg : (s.endCycle i pok got B).cfg = s.cfg := rfl
@[simp] theorem State.endCycle_block : (s.endCycle i pok got B).block = B := rfl
@[simp] theorem State.endCycle_commands : (s.endCycle i pok got B).commands = s.commands := rfl
@[simp] theorem State.endCycle_cycle : (s.endCycle i pok got B).cycle = s.cycle + 1 := rfl
@[simp] theorem State.endCycle_draws :
    (s.endCycle i pok got B).draws = if got.isSome then s.draws else s.draws + 1 := rfl
@[simp] theorem State.endCycle_history :
    (s.endCycle i pok got B).history = { cmd := i, out := s.outputs pok got } :: s.history := rfl

/-! The parts of the block after a cycle, as the values a statement speaks of: the width of a register is a field of the
state, so these are said of each part and not left to rewriting the block inside it. -/

@[simp] theorem State.endCycle_capacity : (s.endCycle i pok got B).capacity = s.capacity := rfl
@[simp] theorem State.endCycle_putI : (s.endCycle i pok got B).putI = B.putI.toNat := rfl
@[simp] theorem State.endCycle_getI : (s.endCycle i pok got B).getI = B.getI.toNat := rfl
@[simp] theorem State.endCycle_mem : (s.endCycle i pok got B).block.mem = B.mem := rfl
@[simp] theorem State.endCycle_count : (s.endCycle i pok got B).count = B.count.toNat := rfl
@[simp] theorem State.endCycle_empty : (s.endCycle i pok got B).empty = B.empty := rfl
@[simp] theorem State.endCycle_full : (s.endCycle i pok got B).full = B.full := rfl
@[simp] theorem State.endCycle_contents : (s.endCycle i pok got B).contents = B.contents := rfl
@[simp] theorem State.endCycle_freeSpace : (s.endCycle i pok got B).block.freeSpace = B.freeSpace := rfl
@[simp] theorem State.endCycle_wf : (s.endCycle i pok got B).wf = B.wf := rfl

@[simp] theorem State.outputs_putOk : (s.outputs pok got).putOk = pok := rfl
@[simp] theorem State.outputs_getOk : (s.outputs pok got).getOk = got.isSome := rfl
@[simp] theorem State.outputs_getData_some (b : Byte) : (s.outputs pok (some b)).getData = b := rfl
@[simp] theorem State.outputs_empty : (s.outputs pok got).empty = s.block.empty := rfl
@[simp] theorem State.outputs_full : (s.outputs pok got).full = s.block.full := rfl
@[simp] theorem State.outputs_count : (s.outputs pok got).count = s.block.count.toNat := rfl
@[simp] theorem State.outputs_usableData : (s.outputs pok got).usableData = got := by
  cases got <;> rfl

/-- The end of a cycle is the frame that every command has. -/
theorem State.endCycle_cycleOf : CycleOf i s (s.endCycle i pok got B) (s.outputs pok got) :=
  ⟨rfl, rfl, rfl, rfl, rfl, rfl, rfl, rfl⟩

end endCycle

section blockParts

variable {N : Nat} (S : Block N) (d : Byte)

@[simp] theorem Block.store_putI : (S.store d).putI = Block.next S.putI := rfl
@[simp] theorem Block.store_getI : (S.store d).getI = S.getI := rfl
@[simp] theorem Block.store_mem : (S.store d).mem = S.mem.write S.putI.toNat d := rfl
@[simp] theorem Block.advanceGet_putI : S.advanceGet.putI = S.putI := rfl
@[simp] theorem Block.advanceGet_getI : S.advanceGet.getI = Block.next S.getI := rfl
@[simp] theorem Block.advanceGet_mem : S.advanceGet.mem = S.mem := rfl
@[simp] theorem Block.clear_putI : S.clear.putI = 0#N := rfl
@[simp] theorem Block.clear_getI : S.clear.getI = 0#N := rfl
@[simp] theorem Block.clear_mem : S.clear.mem = S.mem := rfl

end blockParts

section ports

variable (s : State) (w : CmdWord)

@[simp] theorem State.takeWord_cfg : s.takeWord.cfg = s.cfg := rfl
@[simp] theorem State.takeWord_block : s.takeWord.block = s.block := rfl
@[simp] theorem State.takeWord_commands : s.takeWord.commands = s.commands.tail := rfl
@[simp] theorem State.takeWord_cycle : s.takeWord.cycle = s.cycle := rfl
@[simp] theorem State.takeWord_draws : s.takeWord.draws = s.draws := rfl
@[simp] theorem State.takeWord_history : s.takeWord.history = s.history := rfl
@[simp] theorem State.offerWord_cfg : (s.offerWord w).cfg = s.cfg := rfl
@[simp] theorem State.offerWord_block : (s.offerWord w).block = s.block := rfl
@[simp] theorem State.offerWord_commands : (s.offerWord w).commands = w :: s.commands := rfl
@[simp] theorem State.offerWord_cycle : (s.offerWord w).cycle = s.cycle := rfl
@[simp] theorem State.offerWord_draws : (s.offerWord w).draws = s.draws := rfl
@[simp] theorem State.offerWord_history : (s.offerWord w).history = s.history := rfl
@[simp] theorem State.offerWord_portWord : (s.offerWord w).portWord = w := rfl

end ports

section reset

variable (cfg : Config) (draw : Block cfg.logCap)

@[simp] theorem State.resetOf_cfg : (State.resetOf cfg).cfg = cfg := rfl
@[simp] theorem State.resetOf_block : (State.resetOf cfg).block = ⟨0#cfg.logCap, 0#cfg.logCap, []⟩ := rfl
@[simp] theorem State.resetOf_commands : (State.resetOf cfg).commands = [] := rfl
@[simp] theorem State.resetOf_cycle : (State.resetOf cfg).cycle = 1 := rfl
@[simp] theorem State.resetOf_history : (State.resetOf cfg).history = [] := rfl
@[simp] theorem State.powerUp_cfg : (State.powerUp cfg draw).cfg = cfg := rfl
@[simp] theorem State.powerUp_block : (State.powerUp cfg draw).block = draw := rfl
@[simp] theorem State.powerUp_commands : (State.powerUp cfg draw).commands = [] := rfl
@[simp] theorem State.powerUp_cycle : (State.powerUp cfg draw).cycle = 0 := rfl
@[simp] theorem State.powerUp_history : (State.powerUp cfg draw).history = [] := rfl

end reset

section system

variable (y : System) (t : State) (pok gok : Bool)

@[simp] theorem System.afterCycle_state : (y.afterCycle t pok gok).state = t := rfl
@[simp] theorem System.afterCycle_producer :
    (y.afterCycle t pok gok).producer = System.dropDone (ProducerOp.ends pok) y.producer := rfl
@[simp] theorem System.afterCycle_consumer :
    (y.afterCycle t pok gok).consumer = System.dropDone (ConsumerOp.ends gok) y.consumer := rfl
@[simp] theorem System.afterCycle_initializer :
    (y.afterCycle t pok gok).initializer = y.initializer.tail := rfl

end system

end Sys2Proof.Machine
end

