-- ==== Sys2Proof/Laws/Flags.lean ====
section
/-!
SUPPORT. The index registers and the status outputs as numbers, and the live slots after a put, a get and an INIT.
-/

namespace Sys2Proof.Machine.Block

variable {N : Nat} (S : Block N)

theorem next_toNat (i : BitVec N) : (next i).toNat = (i.toNat + 1) % 2 ^ N := by
  simp [next, BitVec.toNat_add]

/-- The occupancy as a number, by the order of the two indices. -/
theorem count_toNat_cases :
    (S.getI.toNat ≤ S.putI.toNat ∧ S.count.toNat = S.putI.toNat - S.getI.toNat) ∨
    (S.putI.toNat < S.getI.toNat ∧ S.count.toNat = 2 ^ N + S.putI.toNat - S.getI.toNat) := by
  have hp := S.putI.isLt
  have hg := S.getI.isLt
  simp only [count, BitVec.toNat_sub]
  rcases Nat.lt_or_ge S.putI.toNat S.getI.toNat with h | h
  · exact .inr ⟨h, by rw [Nat.mod_eq_of_lt (by omega)]; omega⟩
  · refine .inl ⟨h, ?_⟩
    rw [show 2 ^ N - S.getI.toNat + S.putI.toNat = (S.putI.toNat - S.getI.toNat) + 2 ^ N by omega,
      Nat.add_mod_right, Nat.mod_eq_of_lt (by omega)]

/-- An advanced index as a number, by whether it wraps. -/
theorem next_toNat_cases (i : BitVec N) :
    (i.toNat + 1 = 2 ^ N ∧ (next i).toNat = 0) ∨ (i.toNat + 1 < 2 ^ N ∧ (next i).toNat = i.toNat + 1) := by
  have hi := i.isLt
  rw [next_toNat]
  rcases Nat.lt_or_ge (i.toNat + 1) (2 ^ N) with h | h
  · exact .inr ⟨h, Nat.mod_eq_of_lt h⟩
  · have h1 : i.toNat + 1 = 2 ^ N := by omega
    exact .inl ⟨h1, by rw [h1, Nat.mod_self]⟩

theorem empty_toNat : S.empty = decide (S.putI.toNat = S.getI.toNat) := by
  simp [empty, BitVec.toNat_eq, beq_eq_decide]

theorem full_toNat : S.full = decide ((next S.putI).toNat = S.getI.toNat) := by
  simp [full, BitVec.toNat_eq, beq_eq_decide]

/-- A capacity is at least 2 (00_scope.md R6). -/
theorem two_le_pow {N : Nat} (hN : 1 ≤ N) : 2 ≤ 2 ^ N := by
  simpa using Nat.pow_le_pow_right (n := 2) (by decide) hN

/-- The slot `k` places after the oldest live one, by whether the storage's end lies between. -/
theorem slot_cases {k : Nat} (hk : k < 2 ^ N) :
    (S.getI.toNat + k < 2 ^ N ∧ (S.getI.toNat + k) % 2 ^ N = S.getI.toNat + k) ∨
    (2 ^ N ≤ S.getI.toNat + k ∧ (S.getI.toNat + k) % 2 ^ N = S.getI.toNat + k - 2 ^ N) := by
  have hg := S.getI.isLt
  rcases Nat.lt_or_ge (S.getI.toNat + k) (2 ^ N) with h | h
  · exact .inl ⟨h, Nat.mod_eq_of_lt h⟩
  · exact .inr ⟨h, by rw [Nat.mod_eq_sub_mod h, Nat.mod_eq_of_lt (by omega)]⟩

@[simp] theorem liveSlots_length : S.liveSlots.length = S.count.toNat := by simp [liveSlots]

@[simp] theorem contents_length : S.contents.length = S.count.toNat := by simp [contents]

/-- A successful put adds the slot it writes to the end of the live slots. -/
theorem liveSlots_store (hN : 1 ≤ N) (h : S.full = false) (d : Byte) :
    (S.store d).liveSlots = S.liveSlots ++ [S.putI.toNat] := by
  have hp := S.putI.isLt
  have hg := S.getI.isLt
  have h2 : 2 ≤ 2 ^ N := two_le_pow hN
  have hn := next_toNat_cases S.putI
  rw [full_toNat, decide_eq_false_iff_not] at h
  have hc := S.count_toNat_cases
  have hc' := (S.store d).count_toNat_cases
  simp only [store_putI, store_getI] at hc'
  have hcount : (S.store d).count.toNat = S.count.toNat + 1 := by omega
  have hslot := S.slot_cases (k := S.count.toNat) S.count.isLt
  simp only [liveSlots, hcount, List.range_succ, List.map_append, List.map_cons, List.map_nil]
  congr 2
  show (S.getI.toNat + _) % _ = _
  omega

/-- A successful get drops the first live slot. -/
theorem liveSlots_advanceGet (hN : 1 ≤ N) (h : S.empty = false) :
    S.liveSlots = S.getI.toNat :: S.advanceGet.liveSlots := by
  have hp := S.putI.isLt
  have hg := S.getI.isLt
  have h2 : 2 ≤ 2 ^ N := two_le_pow hN
  have hn := next_toNat_cases S.getI
  rw [empty_toNat, decide_eq_false_iff_not] at h
  have hc := S.count_toNat_cases
  have hc' := S.advanceGet.count_toNat_cases
  simp only [advanceGet_putI, advanceGet_getI] at hc'
  have hcount : S.count.toNat = S.advanceGet.count.toNat + 1 := by omega
  simp only [liveSlots, hcount, List.range_succ_eq_map, List.map_cons, List.map_map, Nat.add_zero,
    Nat.mod_eq_of_lt hg, List.cons.injEq, true_and]
  refine List.map_congr_left (fun k _ => ?_)
  simp only [Function.comp, advanceGet_getI, next_toNat, Nat.mod_add_mod]
  congr 1
  omega

/-- After INIT no slot is live. -/
theorem liveSlots_clear : S.clear.liveSlots = [] := by
  simp [liveSlots, count, clear]

end Sys2Proof.Machine.Block
end

