-- ==== Sys2Proof/Laws/Memory.lean ====
section
/-!
SUPPORT. The storage: a read after a write, and that a write keeps the canonical form and the slots of the block.
-/

namespace Sys2Proof.Machine.Memory

@[simp] theorem read_nil (a : Nat) : read [] a = unlisted := rfl

theorem read_cons (a : Nat) (v : Byte) (m : Memory) (x : Nat) (h : x = a → v = unlisted → read m x = unlisted) :
    read (cons a v m) x = if x = a then v else read m x := by
  unfold cons
  split_ifs with hv hx hx <;> simp_all [read]

/-- A canonical storage reads as unlisted below its first index. -/
theorem read_below {lo : Nat} {m : Memory} (h : wfFrom lo m = true) {a : Nat} (ha : a < lo) :
    read m a = unlisted := by
  induction m generalizing lo with
  | nil => rfl
  | cons c m ih =>
    obtain ⟨b, v⟩ := c
    simp only [wfFrom, Bool.and_eq_true, decide_eq_true_eq] at h
    have hb : a ≠ b := by omega
    simp only [read, if_neg hb]
    exact ih h.2 (by omega)

/-- A canonical storage is one from any lower index on. -/
theorem wfFrom_mono {lo hi : Nat} {m : Memory} (h : wfFrom hi m = true) (hl : lo ≤ hi) : wfFrom lo m = true := by
  cases m with
  | nil => rfl
  | cons c m =>
    obtain ⟨b, v⟩ := c
    simp only [wfFrom, Bool.and_eq_true, decide_eq_true_eq] at h ⊢
    exact ⟨⟨by omega, h.1.2⟩, h.2⟩

theorem cons_wfFrom {lo a : Nat} {v : Byte} {m : Memory} (h : wfFrom (a + 1) m = true) (hl : lo ≤ a) :
    wfFrom lo (cons a v m) = true := by
  unfold cons
  split_ifs with hv
  · exact wfFrom_mono h (by omega)
  · simp [wfFrom, hl, hv, h]

/-- What one write does: the slot reads the new byte and every other slot reads as before. -/
theorem read_write_from {lo : Nat} {m : Memory} (h : wfFrom lo m = true) (a : Nat) (v : Byte) (x : Nat) :
    read (write m a v) x = if x = a then v else read m x := by
  induction m generalizing lo with
  | nil => exact read_cons a v [] x (fun _ _ => rfl)
  | cons c m ih =>
    obtain ⟨b, w⟩ := c
    have hw := h
    simp only [wfFrom, Bool.and_eq_true, decide_eq_true_eq] at hw
    have hhead : read ((b, w) :: m) x = if x = b then w else read m x := rfl
    unfold write
    by_cases h1 : a < b
    · rw [if_pos h1]
      refine read_cons a v _ x (fun e _ => ?_)
      exact read_below (lo := b) (by simp [wfFrom, hw.1.2, hw.2]) (by omega)
    · rw [if_neg h1]
      by_cases h2 : a = b
      · subst h2
        rw [if_pos rfl, read_cons a v _ x (fun e _ => read_below hw.2 (by omega)), hhead]
        split_ifs <;> rfl
      · rw [if_neg h2, hhead]
        have htail : read ((b, w) :: write m a v) x = if x = b then w else read (write m a v) x := rfl
        rw [htail, ih hw.2]
        split_ifs with h3 h4 <;> first | rfl | omega

theorem read_write {m : Memory} (h : wf m = true) (a : Nat) (v : Byte) (x : Nat) :
    read (write m a v) x = if x = a then v else read m x := read_write_from h a v x

theorem write_wfFrom {lo : Nat} {m : Memory} (h : wfFrom lo m = true) {a : Nat} (ha : lo ≤ a) (v : Byte) :
    wfFrom lo (write m a v) = true := by
  induction m generalizing lo with
  | nil => exact cons_wfFrom rfl ha
  | cons c m ih =>
    obtain ⟨b, w⟩ := c
    have hw := h
    simp only [wfFrom, Bool.and_eq_true, decide_eq_true_eq] at hw
    unfold write
    split_ifs with h1 h2
    · exact cons_wfFrom (by simp [wfFrom, hw.1.2, hw.2]; omega) ha
    · subst h2; exact cons_wfFrom hw.2 ha
    · simp only [wfFrom, Bool.and_eq_true, decide_eq_true_eq]
      exact ⟨⟨hw.1.1, hw.1.2⟩, ih hw.2 (by omega)⟩

/-- A write keeps the canonical form. -/
theorem write_wf {m : Memory} (h : wf m = true) (a : Nat) (v : Byte) : wf (write m a v) = true :=
  write_wfFrom h (Nat.zero_le a) v

/-- A write at a slot of the block lists slots of the block only. -/
theorem write_within {c : Nat} {m : Memory} (h : within c m = true) {a : Nat} (ha : a < c) (v : Byte) :
    within c (write m a v) = true := by
  have hcons : ∀ {m : Memory}, within c m = true → within c (cons a v m) = true := by
    intro m hm
    unfold cons
    split_ifs
    · exact hm
    · simpa [within, ha] using hm
  induction m with
  | nil => exact hcons rfl
  | cons cell m ih =>
    obtain ⟨b, w⟩ := cell
    have hm : b < c ∧ within c m = true := by simpa [within] using h
    unfold write
    split_ifs
    · exact hcons h
    · exact hcons hm.2
    · simpa [within, hm.1] using ih hm.2

/-- Canonical storages that read the same everywhere are equal. -/
theorem ext_from {lo : Nat} {m n : Memory} (hm : wfFrom lo m = true) (hn : wfFrom lo n = true)
    (h : ∀ a, read m a = read n a) : m = n := by
  induction m generalizing n lo with
  | nil =>
    cases n with
    | nil => rfl
    | cons c n =>
      obtain ⟨b, w⟩ := c
      have := h b
      simp only [wfFrom, Bool.and_eq_true, decide_eq_true_eq, bne_iff_ne] at hn
      simp only [read, if_true] at this
      exact absurd this.symm hn.1.2
  | cons c m ih =>
    obtain ⟨a, v⟩ := c
    have ha := h a
    simp only [wfFrom, Bool.and_eq_true, decide_eq_true_eq, bne_iff_ne] at hm
    cases n with
    | nil =>
      simp only [read, if_true] at ha
      exact absurd ha hm.1.2
    | cons c n =>
      obtain ⟨b, w⟩ := c
      have hb := h b
      simp only [wfFrom, Bool.and_eq_true, decide_eq_true_eq, bne_iff_ne] at hn
      have hab : a = b := by
        rcases Nat.lt_trichotomy a b with hlt | heq | hgt
        · simp only [read, if_true, if_neg (Nat.ne_of_lt hlt)] at ha
          exact absurd (ha.trans (read_below hn.2 (by omega))) hm.1.2
        · exact heq
        · simp only [read, if_true, if_neg (Nat.ne_of_lt hgt)] at hb
          exact absurd (hb.symm.trans (read_below hm.2 (by omega))) hn.1.2
      subst hab
      have hvw : v = w := by simpa [read] using ha
      subst hvw
      have htail : ∀ x, read m x = read n x := by
        intro x
        by_cases hx : x = a
        · subst hx; rw [read_below hm.2 (by omega), read_below hn.2 (by omega)]
        · simpa [read, hx] using h x
      rw [ih hm.2 hn.2 htail]

theorem ext {m n : Memory} (hm : wf m = true) (hn : wf n = true) (h : ∀ a, read m a = read n a) : m = n :=
  ext_from hm hn h

end Sys2Proof.Machine.Memory
end

