-- ==== Sys2Proof/Laws/Contents.lean ====
section
/-!
SUPPORT. What the three operations on a block do to its storage's form and to its contents.
-/

namespace Sys2Proof.Machine.Block

variable {N : Nat} (S : Block N)

theorem wf_iff : S.wf = true ↔ S.mem.wf = true ∧ S.mem.within (2 ^ N) = true := by simp [wf]

theorem store_wf (h : S.wf = true) (d : Byte) : (S.store d).wf = true := by
  rw [wf_iff] at h ⊢
  exact ⟨Memory.write_wf h.1 _ _, Memory.write_within h.2 S.putI.isLt _⟩

theorem advanceGet_wf (h : S.wf = true) : S.advanceGet.wf = true := h

theorem clear_wf (h : S.wf = true) : S.clear.wf = true := h

/-- The slot at the put index is none of the live ones. -/
theorem slot_ne_putI {k : Nat} (hk : k < S.count.toNat) : (S.getI.toNat + k) % 2 ^ N ≠ S.putI.toNat := by
  have hp := S.putI.isLt
  have hg := S.getI.isLt
  have hc := S.count_toNat_cases
  have hs := S.slot_cases (k := k) (by omega)
  omega

/-- The byte of a slot after a put. -/
theorem read_store (h : S.wf = true) (d : Byte) (a : Nat) :
    (S.store d).mem.read a = if a = S.putI.toNat then d else S.mem.read a :=
  Memory.read_write (S.wf_iff.1 h).1 _ _ _

/-- A successful put appends its byte. -/
theorem contents_store (hN : 1 ≤ N) (hw : S.wf = true) (h : S.full = false) (d : Byte) :
    (S.store d).contents = S.contents ++ [d] := by
  have hlive : ∀ a ∈ S.liveSlots, a ≠ S.putI.toNat := by
    intro a ha
    obtain ⟨k, hk, rfl⟩ := List.mem_map.1 ha
    exact S.slot_ne_putI (List.mem_range.1 hk)
  simp only [contents, liveSlots_store S hN h d, List.map_append, List.map_cons, List.map_nil]
  congr 1
  · exact List.map_congr_left (fun a ha => by rw [S.read_store hw, if_neg (hlive a ha)])
  · rw [S.read_store hw, if_pos rfl]

/-- A successful get takes the first byte. -/
theorem contents_advanceGet (hN : 1 ≤ N) (h : S.empty = false) : S.contents = S.front :: S.advanceGet.contents := by
  simp only [contents, liveSlots_advanceGet S hN h, List.map_cons, front, advanceGet_mem]

/-- INIT leaves nothing. -/
theorem contents_clear : S.clear.contents = [] := by simp [contents, liveSlots_clear]

end Sys2Proof.Machine.Block
end

