-- ==== Sys2Proof/Laws/Decode.lean ====
section
/-!
SUPPORT. The decoder by the three upper bits of the word, one by one.
-/

namespace Sys2Proof

/-- The two enable bits as a field. -/
theorem enables_eq (w : CmdWord) :
    w.extractLsb' 8 2 = BitVec.ofBool (w.getLsbD 9) ++ BitVec.ofBool (w.getLsbD 8) := by
  apply BitVec.eq_of_getLsbD_eq
  intro i hi
  have : i = 0 ∨ i = 1 := by omega
  rcases this with rfl | rfl <;> rw [BitVec.getLsbD_extractLsb', BitVec.getLsbD_append] <;> simp

/-- What a word decodes to, by `R`, `P` and `G` (30_encoding.md R51). -/
theorem decodeWord_by_bits (w : CmdWord) :
    decodeWord w =
      if w.getLsbD 10 then .init
      else
        match w.getLsbD 9, w.getLsbD 8 with
        | false, false => .nop
        | false, true => .get
        | true, false => .put (w.extractLsb' 0 8)
        | true, true => .putget (w.extractLsb' 0 8) := by
  unfold decodeWord
  by_cases h : w.getLsbD 10 = true
  · rw [if_pos h, if_pos h]
  · rw [if_neg h, if_neg h, enables_eq w]
    cases w.getLsbD 9 <;> cases w.getLsbD 8 <;> rfl

end Sys2Proof
end

