-- ==== Sys2Proof/Laws/Exec.lean ====
section
/-!
SUPPORT. What each meaning answers, case by case; the shape that all of them have; and the storage's form.
-/

namespace Sys2Proof.Machine

variable (s : State) (d : Byte)

theorem execInit_eq : exec .init s = .next (s.endCycle .init false none s.block.clear) := rfl

theorem execNop_eq : exec .nop s = .next (s.endCycle .nop false none s.block) := rfl

variable {s} in
theorem execPut_of_full (h : s.block.full = true) :
    exec (.put d) s = .next (s.endCycle (.put d) false none s.block) := if_pos h

variable {s} in
theorem execPut_of_room (h : s.block.full = false) :
    exec (.put d) s = .next (s.endCycle (.put d) true none (s.block.store d)) := if_neg (by simp [h])

variable {s} in
theorem execGet_of_empty (h : s.block.empty = true) :
    exec .get s = .next (s.endCycle .get false none s.block) := if_pos h

variable {s} in
theorem execGet_of_data (h : s.block.empty = false) :
    exec .get s = .next (s.endCycle .get false (some s.block.front) s.block.advanceGet) := if_neg (by simp [h])

variable {s} in
theorem execPutget_of_empty (hf : s.block.full = false) (he : s.block.empty = true) :
    exec (.putget d) s = .next (s.endCycle (.putget d) true none (s.block.store d)) := by
  simp [exec, execPutget, hf, he, Block.store]

variable {s} in
theorem execPutget_of_full (hf : s.block.full = true) (he : s.block.empty = false) :
    exec (.putget d) s = .next (s.endCycle (.putget d) false (some s.block.front) s.block.advanceGet) := by
  simp [exec, execPutget, hf, he, Block.advanceGet]

variable {s} in
theorem execPutget_of_both (hf : s.block.full = false) (he : s.block.empty = false) :
    exec (.putget d) s = .next (s.endCycle (.putget d) true (some s.block.front) (s.block.store d).advanceGet) := by
  simp [exec, execPutget, hf, he, Block.advanceGet, Block.store]

/-- A block is never empty and full at once, since `C >= 2` (43_size_flags.md R78). -/
theorem Block.not_full_of_empty {N : Nat} (hN : 1 ≤ N) {S : Block N} (he : S.empty = true) : S.full = false := by
  have hp := S.putI.isLt
  have h2 := Block.two_le_pow hN
  have hn := Block.next_toNat_cases S.putI
  rw [Block.empty_toNat, decide_eq_true_eq] at he
  rw [Block.full_toNat, decide_eq_false_iff_not]
  omega

/-- Say once what a command can do: it ends the cycle with one of these blocks. -/
theorem exec_shape (i : Instr) :
    ∃ pok got B, exec i s = .next (s.endCycle i pok got B) ∧
      (B = s.block ∨ B = s.block.clear ∨ (∃ e, B = s.block.store e) ∨
        B = s.block.advanceGet ∨ ∃ e, B = (s.block.store e).advanceGet) := by
  cases i with
  | nop => exact ⟨_, _, _, rfl, by simp⟩
  | init => exact ⟨_, _, _, rfl, by simp⟩
  | put e =>
    cases h : s.block.full with
    | true => exact ⟨_, _, _, execPut_of_full e h, by simp⟩
    | false => exact ⟨_, _, _, execPut_of_room e h, .inr (.inr (.inl ⟨e, rfl⟩))⟩
  | get =>
    cases h : s.block.empty with
    | true => exact ⟨_, _, _, execGet_of_empty h, by simp⟩
    | false => exact ⟨_, _, _, execGet_of_data h, by simp⟩
  | putget e =>
    cases he : s.block.empty with
    | true =>
      have hf := Block.not_full_of_empty s.cfg.logCap_pos he
      exact ⟨_, _, _, execPutget_of_empty e hf he, .inr (.inr (.inl ⟨e, rfl⟩))⟩
    | false =>
      cases hf : s.block.full with
      | true => exact ⟨_, _, _, execPutget_of_full e hf he, by simp⟩
      | false => exact ⟨_, _, _, execPutget_of_both e hf he, .inr (.inr (.inr (.inr ⟨e, rfl⟩)))⟩

/-- A run of no command. -/
@[simp] theorem execAll_nil : execAll [] s = .next s := rfl

/-- A run goes on from the state of its first cycle. -/
theorem execAll_cons_next {i : Instr} {t : State} (h : exec i s = .next t) (is : List Instr) :
    execAll (i :: is) s = execAll is t := by simp [execAll, h]

/-- A run always ends in a state of the same block parameter, with one record more for each command, the latest
first. -/
theorem execAll_history (is : List Instr) (s : State) :
    ∃ t r, execAll is s = .next t ∧ t.history = r ++ s.history ∧ r.length = is.length ∧ t.cfg = s.cfg := by
  induction is generalizing s with
  | nil => exact ⟨s, [], rfl, rfl, rfl, rfl⟩
  | cons i is ih =>
    obtain ⟨pok, got, B, h, -⟩ := exec_shape s i
    obtain ⟨t, r, hrun, hhist, hlen, hcfg⟩ := ih (s.endCycle i pok got B)
    refine ⟨t, r ++ [{ cmd := i, out := s.outputs pok got }], (execAll_cons_next s h is).trans hrun, ?_, ?_, hcfg⟩
    · simp [hhist]
    · simp [hlen]

section failures

variable {N : Nat} (S : Block N) (p : Inputs)

/-- PUT_FULL: "`put_ok = 0` with `put_en = 1`, `rst = 0`", when the start state is full (60_exceptions.md R90). -/
theorem putFull_mem_failures : Failure.putFull ∈ failures S p ↔ p.putEn = true ∧ p.rst = false ∧ S.full = true := by
  unfold failures; split_ifs <;> simp_all

/-- GET_EMPTY, likewise (60_exceptions.md R90). -/
theorem getEmpty_mem_failures : Failure.getEmpty ∈ failures S p ↔ p.getEn = true ∧ p.rst = false ∧ S.empty = true := by
  unfold failures; split_ifs <;> simp_all

/-- A put that INIT discards. -/
theorem putDiscarded_mem_failures : Failure.putDiscarded ∈ failures S p ↔ p.putEn = true ∧ p.rst = true := by
  unfold failures; split_ifs <;> simp_all

/-- A get that INIT discards. -/
theorem getDiscarded_mem_failures : Failure.getDiscarded ∈ failures S p ↔ p.getEn = true ∧ p.rst = true := by
  unfold failures; split_ifs <;> simp_all

end failures

end Sys2Proof.Machine
end

