-- ==== Sys2Proof/Laws/PerInstr.lean ====
section
/-!
SUPPORT. Statements made of every instruction as syntax, one lemma a constructor.
-/

namespace Sys2Proof.Laws.CanonicalRow

/-- The instruction's canonical word belongs to the opcode-map row of the instruction's mnemonic, and no bit that the
row ignores is set in it (30_encoding.md R50, R52). -/
def Statement (i : Instr) : Prop :=
  ∃ r ∈ opcodeTable, r.mnemonic = i.mnemonic ∧ r.accepts (encodeWord i) = true ∧
    canonicalWord (encodeWord i) = encodeWord i

theorem nop : Statement .nop := by
  unfold Statement
  decide

theorem get : Statement .get := by
  unfold Statement
  decide

theorem put (d : Byte) : Statement (.put d) := by
  refine ⟨⟨"PUT", 0x200#11, 0x700#11⟩, by decide, rfl, ?_⟩
  revert d
  decide

theorem putget (d : Byte) : Statement (.putget d) := by
  refine ⟨⟨"PUTGET", 0x300#11, 0x700#11⟩, by decide, rfl, ?_⟩
  revert d
  decide

theorem init : Statement .init := by
  unfold Statement
  decide

end Sys2Proof.Laws.CanonicalRow
end

