-- ==== Sys2Proof/Tests/Slice0.lean ====
section
/-!
SUPPORT. The model's own tests, each one cycle from a state of the spec's tables; the smoke test of the well-formedness
checks; and a witness for the hypotheses of every obligation that has some. The expected values are those of
95_test_vectors.md (V..., P...) and of the opcode map of 30_encoding.md R50.
-/

open Sys2Proof Sys2Proof.Machine

namespace Sys2Proof.Tests.Slice0

/-! ### Helpers -/

/-- The storage with these bytes in its slots 0, 1, ... -/
def slots (bytes : List Byte) : Memory :=
  (bytes.zipIdx).foldl (fun m c => m.write c.2 c.1) []

/-- A block of parameter `n` as it powers up with these indices and bytes. -/
def start (n : Nat) (h : 1 ≤ n) (p g : Nat) (bytes : List Byte) : State :=
  State.powerUp ⟨n, h⟩ { putI := BitVec.ofNat n p, getI := BitVec.ofNat n g, mem := slots bytes }

/-- What a table row shows after a cycle: the indices, the first slots, `put_ok`, `get_ok`, and the byte got. -/
structure Row where
  putI : Nat
  getI : Nat
  mem : List Byte
  putOk : Bool
  getOk : Bool
  data : Option Byte
deriving DecidableEq, Repr

/-- The row of the latest cycle, with `k` slots. -/
def row (k : Nat) : Host.Outcome State Fault Refusal → Option Row
  | .next t =>
    (t.lastOut).map (fun o =>
      { putI := t.putI, getI := t.getI, mem := (List.range k).map t.block.mem.read
        putOk := o.putOk, getOk := o.getOk, data := o.usableData })
  | .fault _ => none
  | .refused _ => none

/-- The command word of a row, stepped. -/
def apply (s : State) (w : CmdWord) : Host.Outcome State Fault Refusal := step (s.offerWord w)

/-! ### Every command (95_test_vectors.md section 2) -/

theorem test_init_V1 :
    row 4 (apply (start 2 (by decide) 3 1 [0x00, 0x41, 0x42, 0x00]) 0x400) =
      some ⟨0, 0, [0x00, 0x41, 0x42, 0x00], false, false, none⟩ := by decide

theorem test_init_V2_discards_put_and_get :
    row 4 (apply (start 2 (by decide) 1 0 [0x10, 0x00, 0x00, 0x00]) 0x7FF) =
      some ⟨0, 0, [0x10, 0x00, 0x00, 0x00], false, false, none⟩ := by decide

theorem test_nop_V6_full :
    row 4 (apply (start 2 (by decide) 2 3 [0x11, 0x22, 0x33, 0x44]) 0x000) =
      some ⟨2, 3, [0x11, 0x22, 0x33, 0x44], false, false, none⟩ := by decide

theorem test_nop_V7_ignores_data :
    row 4 (apply (start 2 (by decide) 0 0 []) 0x0FF) =
      some ⟨0, 0, [0x00, 0x00, 0x00, 0x00], false, false, none⟩ := by decide

theorem test_put_V11_wraps :
    row 4 (apply (start 2 (by decide) 3 1 [0x00, 0x41, 0x42, 0x00]) 0x243) =
      some ⟨0, 1, [0x00, 0x41, 0x42, 0x43], true, false, none⟩ := by decide

theorem test_put_V12_full_after_a_wrap :
    row 4 (apply (start 2 (by decide) 1 2 [0x50, 0x60, 0x70, 0x80]) 0x2FF) =
      some ⟨1, 2, [0x50, 0x60, 0x70, 0x80], false, false, none⟩ := by decide

theorem test_get_V18_wraps :
    row 4 (apply (start 2 (by decide) 1 3 [0x58, 0x00, 0x00, 0x57]) 0x100) =
      some ⟨1, 0, [0x58, 0x00, 0x00, 0x57], false, true, some 0x57⟩ := by decide

theorem test_get_V17_empty_fails :
    row 4 (apply (start 2 (by decide) 2 2 [0x40, 0x41, 0x99, 0x00]) 0x100) =
      some ⟨2, 2, [0x40, 0x41, 0x99, 0x00], false, false, none⟩ := by decide

theorem test_putget_V25_both_succeed :
    row 4 (apply (start 2 (by decide) 1 3 [0x58, 0x00, 0x00, 0x57]) 0x359) =
      some ⟨2, 0, [0x58, 0x59, 0x00, 0x57], true, true, some 0x57⟩ := by decide

theorem test_putget_V27_one_slot_full :
    row 2 (apply (start 1 (by decide) 1 0 [0xC0, 0x00]) 0x3C1) =
      some ⟨1, 1, [0xC0, 0x00], false, true, some 0xC0⟩ := by decide

/-! ### Status outputs (95_test_vectors.md section 2.6 and 2.7) -/

/-- `count`, `empty` and `full` of a block. -/
def status (n p g : Nat) : Nat × Bool × Bool :=
  let S : Block n := { putI := BitVec.ofNat n p, getI := BitVec.ofNat n g, mem := [] }
  (S.count.toNat, S.empty, S.full)

theorem test_status_of_one_slot :
    [status 1 0 0, status 1 1 0, status 1 0 1, status 1 1 1] =
      [(0, true, false), (1, false, true), (1, false, true), (0, true, false)] := by decide

theorem test_status_V33_to_V39 :
    [status 2 1 3, status 2 3 0, status 2 0 1, status 3 7 0, status 3 0 7, status 3 4 4, status 3 3 5] =
      [(2, false, false), (3, false, true), (3, false, true), (7, false, true), (1, false, false), (0, true, false),
        (6, false, false)] := by decide

theorem test_counters_of_section_2_7 :
    let k : Counters 8 := { put := 0x02#8, get := 0xFF#8 }
    (k.count 2, k.full 2, k.empty 2, (k.toBlock 2 []).putI.toNat, (k.toBlock 2 []).getI.toNat) =
      (3#8, true, false, 2, 3) := by decide

/-- `STAT` of a full block of `N = 2`: `full = 1`, `empty = 0`, `count = 3` (30_encoding.md R49). -/
theorem test_stat_word : (Block.statWord { putI := 3#2, getI := 0#2, mem := [] } : BitVec 4) = 0b1011#4 := by decide

/-! ### Decoding, by words written out from the opcode map -/

theorem test_decode_nop : decodeWord 0b00000000000#11 = .nop := by decide
theorem test_decode_get : decodeWord 0b00110101011#11 = .get := by decide
theorem test_decode_put : decodeWord 0b01001000001#11 = .put 0x41 := by decide
theorem test_decode_putget : decodeWord 0b01110100000#11 = .putget 0xA0 := by decide
theorem test_decode_init : decodeWord 0b11111101110#11 = .init := by decide

theorem test_decode_table_words :
    [decodeTableWord 16 0x000, decodeTableWord 11 0x100, decodeTableWord 16 0x2FF, decodeTableWord 16 0x300,
      decodeTableWord 16 0x400, decodeTableWord 16 0x800] =
      [some .nop, some .get, some (.put 0xFF), some (.putget 0x00), some .init, none] := by decide

theorem test_decode_bytes_by_name :
    (decodeBytes [0x41, 0x02, 0x99] = .ok (.put 0x41, [0x99])) ∧ decodeBytes [] = .error .noBytes ∧
      decodeBytes [0x41] = .error .oneByteOnly ∧ decodeBytes [0x00, 0x08] = .error .moreThanElevenBits := by decide

/-! ### The smoke test of the checks: each refuses an ill-formed term -/

theorem smoke_no_capacity_of_no_slot : logCapOk 0 = false ∧ logCapOk 1 = true := by decide
theorem smoke_no_word_of_twelve_bits : cmdWordOk 2048 = false ∧ cmdWordOk 2047 = true := by decide
theorem smoke_every_command_is_legal : Instr.wf (.put 0xFF) = true ∧ Instr.wf .init = true := by decide
theorem smoke_storage_out_of_order : Memory.wf [(3, 0x01), (1, 0x02)] = false := by decide
theorem smoke_storage_lists_a_slot_twice : Memory.wf [(1, 0x01), (1, 0x02)] = false := by decide
theorem smoke_storage_lists_the_unlisted_byte : Memory.wf [(1, 0x00)] = false := by decide
theorem smoke_storage_beyond_the_block : (start 1 (by decide) 0 0 [0x01, 0x02, 0x03]).wf = false := by decide
theorem smoke_configuration_refused : (configure 0).toOption = none := by decide
theorem smoke_two_consumers_refused : (drivePort [some (), some ()]).toOption = none := by decide
theorem smoke_two_producers_refused : (drivePort [some 0x01#8, none, some 0x02#8]).toOption = none := by decide
theorem smoke_put_before_reset : resetBeforeUse [.nop, .put 0x00, .init] = false := by decide

/-! ### A step from reset -/

/-- From reset, PUT 0x41 (word `0x241`) is what the next step runs, and it succeeds (program P1, cycle 1). -/
theorem test_fetch_word_from_reset :
    row 4 (step (State.reset.withFetchWord 16 0x241)) = some ⟨1, 0, [0x41, 0x00, 0x00, 0x00], true, false, none⟩ := by
  decide

/-- With nothing on the ports the cycle is a NOP (30_encoding.md R46). -/
theorem test_idle_ports_are_nop :
    row 4 (step State.reset) = some ⟨0, 0, [0x00, 0x00, 0x00, 0x00], false, false, none⟩ := by decide

/-! ### The agents (program P4) and the syntax -/

/-- The system of program P4 at its cycle 3: the byte 0x48 is held, the producer retries 0x69, the consumer waits. -/
def p4cycle3 : System :=
  { state := start 1 (by decide) 1 0 [0x48, 0x00]
    producer := [.putWait 0x69]
    consumer := [.getWait, .getWait]
    initializer := [] }

/-- The ports' word and the agents' lists after one cycle. -/
def afterOne (y : System) : Option (List ProducerOp × List ConsumerOp × List Byte) :=
  match y.step with
  | .next z => some (z.producer, z.consumer, z.state.contents)
  | .fault _ => none
  | .refused _ => none

theorem test_agents_P4_word : p4cycle3.ports.toWord = 0x369#11 := by decide
theorem test_agents_P4_cycle3 : afterOne p4cycle3 = some ([.putWait 0x69], [.getWait], []) := by decide

/-- The characters of a line of 30_encoding.md R54 with a quoted byte, a label and a comment. -/
theorem test_parse_quoted_byte :
    (Assembly.parseLine "10: PUT 'A' ; first".toList).toOption = some (.command (.put 0x41)) := by decide

/-- No blank need stand between a mnemonic and its byte: the model's choice (assumption 10). -/
theorem test_parse_without_blank :
    (Assembly.parseLine "PUT0x41".toList).toOption = some (.command (.put 0x41)) := by decide

theorem test_parse_refuses_lower_case : (Assembly.parseLine "put 0x41".toList).toOption = none := by decide

theorem test_program_words :
    Assembly.words [.reset, .command (.put 0x48), .size, .command .get] =
      some [0x400#11, 0x248#11, 0x000#11, 0x100#11] := by decide

theorem test_wait_is_no_command : Assembly.words [.putWait 0x48] = none := by decide

/-! ### Witnesses: concrete states and operands that meet each obligation's hypotheses -/

/-- A full block of `N = 2` after a wrap, an empty one off slot 0, and one with two bytes across the wrap. -/
def fullState : State := start 2 (by decide) 1 2 [0x50, 0x60, 0x70, 0x80]
def emptyState : State := start 2 (by decide) 3 3 [0x50, 0x60, 0x70, 0x80]
def halfState : State := start 2 (by decide) 1 3 [0x58, 0x00, 0x00, 0x57]

theorem witness_fullState : fullState.wf = true ∧ fullState.full = true ∧ fullState.count = fullState.capacity - 1 := by
  decide
theorem witness_emptyState : emptyState.wf = true ∧ emptyState.empty = true ∧ emptyState.count = 0 := by decide
theorem witness_halfState :
    halfState.wf = true ∧ halfState.full = false ∧ halfState.empty = false ∧ 1 ≤ halfState.count ∧
      halfState.count ≤ halfState.capacity - 2 := by decide

/-- The least block: with `N = 1` no count lies between empty and full, and both ends are met. -/
theorem witness_least_block :
    (start 1 (by decide) 1 0 [0xC0]).count = (start 1 (by decide) 1 0 [0xC0]).capacity - 1 ∧
      (start 1 (by decide) 1 1 [0xC0]).count = 0 ∧ (start 1 (by decide) 1 1 [0xC0]).cfg.logCap = 1 ∧
      (start 1 (by decide) 1 0 [0xC0]).capacity - 2 = 0 := by decide

/-- ResetWordOverridesPutAndGet, AnyResetCycleGivesTheResetState: a waiting word with `rst = 1`, `put_en = 1`. -/
theorem witness_reset_word :
    (fullState.offerWord 0x6AA).portWord.getLsbD 10 = true ∧ (0x6AA#11).getLsbD 9 = true := by decide

/-- StepRunsTheWordOnThePorts: a word that waits, and none. -/
theorem witness_waiting_word : (halfState.offerWord 0x359).commands = 0x359 :: [] ∧ halfState.commands = [] := by
  decide

/-- FailedPutChangesNothing: a put on a full block with and without a get, and in an INIT. -/
theorem witness_failed_put :
    fullState.full = true ∧ (fullState.offerWord 0x2FF).portWord.getLsbD 9 = true ∧
      (fullState.offerWord 0x2FF).portWord.getLsbD 8 = false ∧ (fullState.offerWord 0x3FF).portWord.getLsbD 9 = true ∧
      (fullState.offerWord 0x600).portWord.getLsbD 9 = true := by decide

/-- FailedGetChangesNothing: a get on an empty block with and without a put, and in an INIT. -/
theorem witness_failed_get :
    emptyState.empty = true ∧ (emptyState.offerWord 0x1FF).portWord.getLsbD 8 = true ∧
      (emptyState.offerWord 0x1FF).portWord.getLsbD 9 = false ∧
      (emptyState.offerWord 0x3FF).portWord.getLsbD 8 = true ∧
      (emptyState.offerWord 0x500).portWord.getLsbD 8 = true := by decide

/-- InitDiscardsTheContents, PutStoresTheByteOrFails, PutgetJudgesBothOnTheStartState,
SuccessfulPutWritesOneFreeSlot, ContentsFollowTheQueueTable, FifoOrderAfterReset: a state in form that holds bytes. -/
theorem witness_form_with_contents : halfState.wf = true ∧ halfState.contents = [0x57, 0x58] := by decide

/-- SuccessfulPutWritesOneFreeSlot, SuccessfulGetShowsTheOldestByte: a command whose put and get both succeed. -/
theorem witness_both_succeed :
    putByte (.putget 0x59) = some 0x59 ∧ requestsGet (.putget 0x59) = true ∧ halfState.full = false ∧
      halfState.empty = false := by decide

/-- SameCycleAccessesAreDisjoint, SameCyclePutAndGetCommute. -/
theorem witness_not_full_not_empty : halfState.full = false ∧ halfState.empty = false ∧ halfState.wf = true := by
  decide

/-- StatusOutputsIgnoreCommandAndStorage: two states that differ in the storage alone. -/
theorem witness_same_indices :
    fullState.cfg = (start 2 (by decide) 1 2 [0x01]).cfg ∧ fullState.putI = (start 2 (by decide) 1 2 [0x01]).putI ∧
      fullState.getI = (start 2 (by decide) 1 2 [0x01]).getI ∧ fullState ≠ start 2 (by decide) 1 2 [0x01] := by decide

/-- MaskedCountersGiveTheSameOutputs, at the least width and at a wider one. -/
theorem witness_counter_widths : 1 ≤ 2 ∧ 2 ≤ 2 ∧ 2 ≤ 8 := by decide

/-- PowerUpDrawIsNotSeenAfterReset: two draws in form, and a stream that resets after a NOP. -/
theorem witness_reset_before_use :
    fullState.block.wf = true ∧ halfState.block.wf = true ∧ fullState.getI ≠ halfState.getI ∧
      resetBeforeUse [.nop, .init, .put 0x41, .get] = true := by decide

/-- EveryStepKeepsTheStorageForm. -/
theorem witness_step_with_form : halfState.wf = true ∧ ∃ t, step halfState = .next t := ⟨by decide, _, rfl⟩

/-- A state that was reached by a put: one byte accepted, none got, one held. -/
def afterPut : State :=
  State.endCycle State.reset (.put 0x41) true none (State.reset.block.store 0x41)

/-- EveryStepKeepsTheFifoLaw, ByteIsGotInALaterCycle: the law with something in it, and a step that gets. -/
theorem witness_fifo_law :
    afterPut.wf = true ∧ acceptedBytes afterPut.history = [0x41] ∧ FifoInv afterPut ∧
      ∃ t, step (afterPut.offerWord 0x100) = .next t :=
  ⟨by decide, by decide, by unfold FifoInv; decide, _, rfl⟩

/-- SameContentsShowTheSame: one content at different indices, over different stale bytes. -/
theorem witness_same_contents :
    halfState.wf = true ∧ (start 2 (by decide) 2 0 [0x57, 0x58, 0x99]).wf = true ∧
      halfState.cfg = (start 2 (by decide) 2 0 [0x57, 0x58, 0x99]).cfg ∧
      halfState.contents = (start 2 (by decide) 2 0 [0x57, 0x58, 0x99]).contents ∧
      halfState.putI ≠ (start 2 (by decide) 2 0 [0x57, 0x58, 0x99]).putI := by decide

/-- OccupancyIsPutsMinusGets, InitDiscardsTheContents (a stream that gets, its first put not its first command). -/
theorem witness_no_init : halfState.wf = true ∧ noInit [.get, .put 0x41, .putget 0x42, .nop] = true := by decide

/-- ByteIsGotAfterTheBytesBeforeIt, behind two bytes and behind none. -/
theorem witness_put_behind : halfState.wf = true ∧ halfState.full = false ∧ emptyState.full = false := by decide

/-- TheCapacityThPutFails: an empty block of four slots and three bytes. -/
theorem witness_three_bytes :
    emptyState.wf = true ∧ emptyState.empty = true ∧ [0x01#8, 0x02#8, 0x03#8].length = emptyState.capacity - 1 := by
  decide

/-- GetsWithinTheOccupancySucceed: exactly `count` gets among puts. -/
theorem witness_gets_within :
    halfState.wf = true ∧ noInit [.get, .put 0x01, .putget 0x02] = true ∧
      [Instr.get, .put 0x01, .putget 0x02].countP requestsGet = halfState.count := by decide

/-- PutsWithinTheFreeSpaceSucceed: exactly `C - 1 - count` puts among gets. -/
theorem witness_puts_within :
    noInit [.get, .putget 0x02, .nop] = true ∧
      [Instr.get, .putget 0x02, .nop].countP (fun i => (putByte i).isSome) =
        halfState.capacity - 1 - halfState.count := by decide

/-- TheOtherSideOnlyAddsMargin. -/
theorem witness_other_side : Instr.put 0x01 ≠ .init ∧ requestsGet (.put 0x01) = false ∧ putByte .get = none := by decide

/-- RetriesAloneFailForever: both sides. -/
theorem witness_retries : fullState.full = true ∧ emptyState.empty = true := by decide

/-- FailuresAreTheTwoResults: a cycle of each clause, the inputs those of a waiting word. -/
theorem witness_failures :
    failures fullState.block (Inputs.ofWord (fullState.offerWord 0x201).portWord) = [.putFull] ∧
      failures emptyState.block (Inputs.ofWord (emptyState.offerWord 0x301).portWord) = [.getEmpty] ∧
      failures halfState.block (Inputs.ofWord (halfState.offerWord 0x701).portWord) =
        [.putDiscarded, .getDiscarded] := by decide

/-- TwoDriversOfOnePortAreRefused: one driver and two, at the consumer's port. -/
theorem witness_drivers :
    [none, some ()].countP Option.isSome = 1 ∧ [some (), none, some ()].countP Option.isSome = 2 := by decide

/-- PutWaitEndsAfterTheConsumerGets, WaitsAreUnbounded (first half, both initializers). -/
theorem witness_put_wait :
    let y : System := { state := fullState, producer := [.putWait 0x01], consumer := [.get], initializer := [] }
    let z : System := { state := fullState, producer := [.putWait 0x01], consumer := [], initializer := [true] }
    y.state.wf = true ∧ y.state.full = true ∧ y.producer = .putWait 0x01 :: [] ∧ y.consumer = [.get] ∧
      y.initializer = [] ∧ z.consumer = [] ∧ z.initializer = [true] := by decide

/-- GetWaitEndsAfterTheProducerPuts, WaitsAreUnbounded (second half). -/
theorem witness_get_wait :
    let y : System := { state := emptyState, producer := [.put 0x01], consumer := [.getWait], initializer := [] }
    let z : System := { state := emptyState, producer := [], consumer := [.getWait], initializer := [true] }
    y.state.wf = true ∧ y.state.empty = true ∧ y.producer = [.put 0x01] ∧ y.consumer = .getWait :: [] ∧
      y.initializer = [] ∧ z.producer = [] ∧ z.state.empty = true := by decide

/-- WrittenLinesReadBack: a label of several digits, blanks of both kinds, an ASCII character. -/
theorem witness_label :
    ['1', '0', '7'] ≠ [] ∧ (∀ c ∈ ['1', '0', '7'], c.isDigit = true) ∧
      (∀ c ∈ [' '] ++ [Char.ofNat 9] ++ [' '], Assembly.isBlank c = true) ∧ 'z'.toNat < 128 :=
  ⟨by decide, List.all_eq_true.1 (by decide), List.all_eq_true.1 (by decide), by decide⟩

/-- DecodeReversesEncode, IgnoredBitsDoNotMatter, OnlyZeroCapacityIsRefused. -/
theorem witness_syntax : Instr.wf (.putget 0xFF) = true ∧ (0x7FF#11).getLsbD 10 = true ∧ 1 ≤ 1 := by decide

end Sys2Proof.Tests.Slice0
end

section
/-!
The two sides of a cycle outside INIT: what a command does on behalf of the producer and what on behalf of the
consumer, each with its own result and its own part of the block (10_state.md R15 to R18).
-/

namespace Sys2Proof.Machine

/-- The producer's side of a cycle under `i` that starts in `S`, has the result `put_ok` and ends in the given block:
it fails or is not asked and keeps PutI and the storage, or it stores the byte (41_put.md R63 to R66). -/
inductive PutSide {N : Nat} (S : Block N) (i : Instr) : Bool → Block N → Prop
  | unchanged {B : Block N} (why : putByte i = none ∨ S.full = true) (putI : B.putI = S.putI) (mem : B.mem = S.mem) :
      PutSide S i false B
  | stored {B : Block N} (d : Byte) (byte : putByte i = some d) (room : S.full = false)
      (putI : B.putI = Block.next S.putI) (mem : B.mem = S.mem.write S.putI.toNat d) : PutSide S i true B

/-- The consumer's side, with the byte it gets: it fails or is not asked and keeps GetI, or it takes the front byte
(42_get.md R69 to R72). -/
inductive GetSide {N : Nat} (S : Block N) (i : Instr) : Option Byte → Block N → Prop
  | unchanged {B : Block N} (why : requestsGet i = false ∨ S.empty = true) (getI : B.getI = S.getI) :
      GetSide S i none B
  | taken {B : Block N} (asked : requestsGet i = true) (data : S.empty = false) (getI : B.getI = Block.next S.getI) :
      GetSide S i (some S.front) B

/-- Every command but INIT is its two sides, both judged on the start state (44_put_get.md R80, R81). -/
theorem exec_sides (s : State) {i : Instr} (hi : i ≠ .init) :
    ∃ pok got B, exec i s = .next (s.endCycle i pok got B) ∧
      PutSide s.block i pok B ∧ GetSide s.block i got B := by
  cases i with
  | init => exact absurd rfl hi
  | nop => exact ⟨_, _, _, execNop_eq s, .unchanged (.inl rfl) rfl rfl, .unchanged (.inl rfl) rfl⟩
  | put d =>
    cases hf : s.block.full with
    | true => exact ⟨_, _, _, execPut_of_full d hf, .unchanged (.inr hf) rfl rfl, .unchanged (.inl rfl) rfl⟩
    | false => exact ⟨_, _, _, execPut_of_room d hf, .stored d rfl hf rfl rfl, .unchanged (.inl rfl) rfl⟩
  | get =>
    cases he : s.block.empty with
    | true => exact ⟨_, _, _, execGet_of_empty he, .unchanged (.inl rfl) rfl rfl, .unchanged (.inr he) rfl⟩
    | false => exact ⟨_, _, _, execGet_of_data he, .unchanged (.inl rfl) rfl rfl, .taken rfl he rfl⟩
  | putget d =>
    cases he : s.block.empty with
    | true =>
      have hf := Block.not_full_of_empty s.cfg.logCap_pos he
      exact ⟨_, _, _, execPutget_of_empty d hf he, .stored d rfl hf rfl rfl, .unchanged (.inr he) rfl⟩
    | false =>
      cases hf : s.block.full with
      | true => exact ⟨_, _, _, execPutget_of_full d hf he, .unchanged (.inr hf) rfl rfl, .taken rfl he rfl⟩
      | false => exact ⟨_, _, _, execPutget_of_both d hf he, .stored d rfl hf rfl rfl, .taken rfl he rfl⟩

section sides

variable {N : Nat} {S B : Block N} {i : Instr}

/-- PutI and the storage change only by a put that succeeds (10_state.md R15, R17). -/
theorem PutSide.put_of_changed {pok : Bool} (side : PutSide S i pok B) (h : B.putI ≠ S.putI ∨ B.mem ≠ S.mem) :
    (∃ d, putByte i = some d) ∧ pok = true := by
  cases side with
  | unchanged _ putI mem => exact absurd h (by simp [putI, mem])
  | stored d byte => exact ⟨⟨d, byte⟩, rfl⟩

/-- GetI changes only by a get that succeeds (10_state.md R16). -/
theorem GetSide.get_of_changed {got : Option Byte} (side : GetSide S i got B) (h : B.getI ≠ S.getI) :
    requestsGet i = true ∧ got.isSome = true := by
  cases side with
  | unchanged _ getI => exact absurd getI h
  | taken asked => exact ⟨asked, rfl⟩

end sides

/-- Settles O32: outside INIT each register and the storage belong to one side, and INIT keeps the storage. -/
theorem eachIndexHasOneWriter : Obligations.EachIndexHasOneWriter := by
  intro i s
  by_cases hi : i = .init
  · subst hi
    exact ⟨_, _, execInit_eq s, State.endCycle_cycleOf .., fun _ => .inl rfl, fun _ => .inl rfl,
      fun hmem => absurd rfl hmem, fun _ => ⟨by simp, by simp⟩⟩
  · obtain ⟨pok, got, B, hexec, put, get⟩ := exec_sides s hi
    exact ⟨_, _, hexec, State.endCycle_cycleOf ..,
      fun hputI => .inr (put.put_of_changed (.inl (mt (congrArg BitVec.toNat) hputI))),
      fun hgetI => .inr (get.get_of_changed (mt (congrArg BitVec.toNat) hgetI)),
      fun hmem => put.put_of_changed (.inr hmem), fun h => absurd h hi⟩

end Sys2Proof.Machine
end

section
/-!
The command word as its four inputs: every word is the word of one setting of the ports and of no other (30_encoding.md
R47), so a fact about a word is a fact about `R`, `P`, `G` and `D`, and a mask of the opcode map (R50) selects ports.
-/

namespace Sys2Proof.Inputs

section fields

variable (p q : Inputs)

@[simp] theorem toWord_getElem_rst : p.toWord[10] = p.rst := by
  rw [← BitVec.getLsbD_eq_getElem, toWord, BitVec.getLsbD_append, BitVec.getLsbD_append, BitVec.getLsbD_append]
  simp

@[simp] theorem toWord_getElem_putEn : p.toWord[9] = p.putEn := by
  rw [← BitVec.getLsbD_eq_getElem, toWord, BitVec.getLsbD_append, BitVec.getLsbD_append, BitVec.getLsbD_append]
  simp

@[simp] theorem toWord_getElem_getEn : p.toWord[8] = p.getEn := by
  rw [← BitVec.getLsbD_eq_getElem, toWord, BitVec.getLsbD_append, BitVec.getLsbD_append]
  simp

@[simp] theorem toWord_extractLsb'_putData : p.toWord.extractLsb' 0 8 = p.putData :=
  BitVec.extractLsb'_append_eq_right

@[simp] theorem ofWord_toWord : ofWord p.toWord = p := by
  simp [ofWord]

/-- The `and` of two words is the `and` of their ports. -/
theorem toWord_and :
    p.toWord &&& q.toWord =
      toWord ⟨p.rst && q.rst, p.putEn && q.putEn, p.getEn && q.getEn, p.putData &&& q.putData⟩ := by
  unfold toWord
  rw [BitVec.and_append, BitVec.and_append, BitVec.and_append]
  simp

/-- The `or` of two words is the `or` of their ports. -/
theorem toWord_or :
    p.toWord ||| q.toWord =
      toWord ⟨p.rst || q.rst, p.putEn || q.putEn, p.getEn || q.getEn, p.putData ||| q.putData⟩ := by
  unfold toWord
  rw [BitVec.or_append, BitVec.or_append, BitVec.or_append]
  simp

end fields

@[simp] theorem toWord_ofWord (w : CmdWord) : (ofWord w).toWord = w := by
  apply BitVec.eq_of_getLsbD_eq
  intro k hk
  by_cases hdata : k < 8
  · rw [toWord, BitVec.getLsbD_append, if_pos hdata]
    simp [ofWord, hdata]
  · obtain rfl | rfl | rfl : k = 8 ∨ k = 9 ∨ k = 10 := by omega
    all_goals simp [ofWord]

/-- A word is the word of its own ports only. -/
theorem toWord_eq_iff {p : Inputs} {w : CmdWord} : p.toWord = w ↔ p = ofWord w :=
  ⟨fun h => by rw [← h, ofWord_toWord], fun h => by rw [h, toWord_ofWord]⟩

/-- The operand alone, as the encoder places it, is the word of `put_data` alone. -/
theorem setWidth_eq_toWord (D : Byte) : D.setWidth 11 = toWord ⟨false, false, false, D⟩ := by
  rw [BitVec.setWidth_eq_append (v := 8) (w := 11) (by decide), toWord]
  simp

/-- The mask of the four rows with `R = 0` keeps `R`, `P` and `G` (30_encoding.md R50). -/
@[simp] theorem toWord_and_control (R P G : Bool) (D : Byte) :
    toWord ⟨R, P, G, D⟩ &&& 0x700#11 = toWord ⟨R, P, G, 0⟩ :=
  (toWord_and _ ⟨true, true, true, 0⟩).trans (by simp)

/-- The mask of INIT's row keeps `R` alone (30_encoding.md R50). -/
@[simp] theorem toWord_and_reset (R P G : Bool) (D : Byte) :
    toWord ⟨R, P, G, D⟩ &&& 0x400#11 = toWord ⟨R, false, false, 0⟩ :=
  (toWord_and _ ⟨true, false, false, 0⟩).trans (by simp)

end Sys2Proof.Inputs

namespace Sys2Proof

/-- Settles O55: each port is read back from its bits of the word, and the word from its ports. -/
theorem portsAndWordAgree : Obligations.PortsAndWordAgree := by
  intro p w
  exact ⟨by simp, by simp, by simp, p.toWord_extractLsb'_putData, p.ofWord_toWord, Inputs.toWord_ofWord w⟩

end Sys2Proof
end

section
/-!
The decoder, the encoder and the opcode map, port by port: what the word of each setting of the ports decodes to, which
ports a command's canonical word sets, and that a row accepts a word exactly when it is the row of the word's command.
-/

namespace Sys2Proof

open Machine

section decoded

variable (P G : Bool) (D : Byte)

@[simp] theorem decodeWord_toWord_init : decodeWord (Inputs.toWord ⟨true, P, G, D⟩) = .init := by
  simp [decodeWord_by_bits]

@[simp] theorem decodeWord_toWord_nop : decodeWord (Inputs.toWord ⟨false, false, false, D⟩) = .nop := by
  simp [decodeWord_by_bits]

@[simp] theorem decodeWord_toWord_get : decodeWord (Inputs.toWord ⟨false, false, true, D⟩) = .get := by
  simp [decodeWord_by_bits]

@[simp] theorem decodeWord_toWord_put : decodeWord (Inputs.toWord ⟨false, true, false, D⟩) = .put D := by
  simp [decodeWord_by_bits]

@[simp] theorem decodeWord_toWord_putget : decodeWord (Inputs.toWord ⟨false, true, true, D⟩) = .putget D := by
  simp [decodeWord_by_bits]

end decoded

/-- The five settings of the ports that the opcode map tells apart (30_encoding.md R50) are all there are. -/
theorem toWord_rows {motive : CmdWord → Prop}
    (nop : ∀ D, motive (Inputs.toWord ⟨false, false, false, D⟩))
    (get : ∀ D, motive (Inputs.toWord ⟨false, false, true, D⟩))
    (put : ∀ D, motive (Inputs.toWord ⟨false, true, false, D⟩))
    (putget : ∀ D, motive (Inputs.toWord ⟨false, true, true, D⟩))
    (init : ∀ P G D, motive (Inputs.toWord ⟨true, P, G, D⟩)) (w : CmdWord) : motive w := by
  rw [← Inputs.toWord_ofWord w]
  obtain ⟨R, P, G, D⟩ := Inputs.ofWord w
  match R, P, G with
  | true, P, G => exact init P G D
  | false, false, false => exact nop D
  | false, false, true => exact get D
  | false, true, false => exact put D
  | false, true, true => exact putget D

/-- A command's canonical word is the word of the three requests it makes (30_encoding.md R52, 60_exceptions.md R97). -/
theorem encodeWord_eq_toWord (i : Instr) :
    encodeWord i = (mergeRequests (decide (i = .init)) (putByte i) (requestsGet i)).toWord := by
  cases i with
  | nop => rfl
  | get => rfl
  | init => rfl
  | put d =>
    rw [encodeWord, Inputs.setWidth_eq_toWord]
    exact (Inputs.toWord_or ⟨false, true, false, 0⟩ _).trans (by simp [mergeRequests, putByte, requestsGet])
  | putget d =>
    rw [encodeWord, Inputs.setWidth_eq_toWord]
    exact (Inputs.toWord_or ⟨false, true, true, 0⟩ _).trans (by simp [mergeRequests, putByte, requestsGet])

/-- Decoding a command's canonical word gives the command back with its byte. -/
@[simp] theorem decodeWord_encodeWord (i : Instr) : decodeWord (encodeWord i) = i := by
  rw [encodeWord_eq_toWord]
  cases i <;> simp [mergeRequests, putByte, requestsGet]

/-- The canonical spelling of a word is the canonical word of its command (30_encoding.md R52). -/
theorem canonicalWord_eq_encodeWord (w : CmdWord) : canonicalWord w = encodeWord (decodeWord w) := by
  rw [encodeWord_eq_toWord]
  induction w using toWord_rows <;> simp [canonicalWord, mergeRequests, putByte, requestsGet]

theorem Instr.wf_eq_true (i : Instr) : i.wf = true := by
  cases i <;> rfl

/-- Settles O54: the canonical spelling is the encoding of the decoded command, and decoding reverses encoding. -/
theorem ignoredBitsDoNotMatter : Obligations.IgnoredBitsDoNotMatter := by
  intro w
  refine ⟨?_, (canonicalWord_eq_encodeWord w).symm, Instr.wf_eq_true _, fun hR => ?_⟩
  · rw [canonicalWord_eq_encodeWord, decodeWord_encodeWord]
  · rw [decodeWord_by_bits, if_pos hR]

/-- A row of the opcode map accepts a word exactly when it is the row of the command the word decodes to. -/
theorem OpcodeRow.accepts_iff {r : OpcodeRow} (hr : r ∈ opcodeTable) (w : CmdWord) :
    r.accepts w = true ↔ r.mnemonic = (decodeWord w).mnemonic := by
  simp only [opcodeTable, List.mem_cons, List.not_mem_nil, or_false] at hr
  -- Masking clears the ports the row ignores, so the row's pattern is compared port by port.
  induction w using toWord_rows
  all_goals
    obtain rfl | rfl | rfl | rfl | rfl := hr
    all_goals simp [OpcodeRow.accepts, Inputs.toWord_eq_iff, Inputs.ofWord, Instr.mnemonic]

/-- No two rows of the opcode map have one mnemonic. -/
theorem OpcodeRow.eq_of_mnemonic :
    ∀ q ∈ opcodeTable, ∀ r ∈ opcodeTable, q.mnemonic = r.mnemonic → q = r := by decide

/-- Every command has its row in the opcode map. -/
theorem Instr.canonicalRow : (i : Instr) → Laws.CanonicalRow.Statement i
  | .nop => Laws.CanonicalRow.nop
  | .get => Laws.CanonicalRow.get
  | .put d => Laws.CanonicalRow.put d
  | .putget d => Laws.CanonicalRow.putget d
  | .init => Laws.CanonicalRow.init

/-- Settles O53: a word's rows are the rows of its command's mnemonic, of which the map has exactly one. -/
theorem everyWordMatchesExactlyOneRow : Obligations.EveryWordMatchesExactlyOneRow := by
  intro w
  obtain ⟨r, hr, hname, -⟩ := (decodeWord w).canonicalRow
  refine ⟨r, hr, (OpcodeRow.accepts_iff hr w).2 hname, hname, fun q hq haccepts => ?_⟩
  exact OpcodeRow.eq_of_mnemonic q hq r hr (((OpcodeRow.accepts_iff hq w).1 haccepts).trans hname.symm)

end Sys2Proof
end

section
/-!
A cycle outside INIT as a queue's: the block that the two sides leave, and the bytes that come out and go in, the oldest
first (44_put_get.md R85, R88).
-/

namespace Sys2Proof.Machine

section sides

variable {N : Nat} {S B : Block N} {i : Instr} {pok : Bool} {got : Option Byte}

/-- The `empty` output says that no byte is held (43_size_flags.md R75, 10_state.md R24). -/
theorem Block.empty_iff_contents : S.empty = true ↔ S.contents = [] := by
  have hp := S.putI.isLt
  have hg := S.getI.isLt
  have hc := S.count_toNat_cases
  rw [← List.length_eq_zero_iff, Block.contents_length, Block.empty_toNat, decide_eq_true_eq]
  omega

theorem Block.empty_eq_false_iff_contents : S.empty = false ↔ S.contents ≠ [] := by
  rw [ne_eq, ← Block.empty_iff_contents, Bool.not_eq_true]

/-- A full block holds a byte, since `C >= 2` (43_size_flags.md R78). -/
theorem Block.contents_ne_nil_of_full (hN : 1 ≤ N) (h : S.full = true) : S.contents ≠ [] := fun hnil => by
  simp [Block.not_full_of_empty hN (Block.empty_iff_contents.2 hnil)] at h

/-- A put and a get in one cycle: the front byte comes out and the new byte goes in behind the rest. -/
theorem Block.contents_store_advanceGet (hN : 1 ≤ N) (hw : S.wf = true) (hf : S.full = false) (he : S.empty = false)
    (d : Byte) : S.front :: (S.store d).advanceGet.contents = S.contents ++ [d] := by
  have hstore := S.contents_store hN hw hf d
  have hne : (S.store d).empty = false := Block.empty_eq_false_iff_contents.2 (by simp [hstore])
  have hget := (S.store d).contents_advanceGet hN hne
  rw [hstore, S.contents_advanceGet hN he, List.cons_append, List.cons.injEq] at hget
  rw [← hget.2, S.contents_advanceGet hN he, List.cons_append]

/-- A block is its three parts (10_state.md R14). -/
theorem Block.eq_of_parts {T : Block N} (putI : B.putI = T.putI) (getI : B.getI = T.getI) (mem : B.mem = T.mem) :
    B = T := by
  cases B; cases T; simp_all

/-- A cycle keeps the storage's form. -/
theorem PutSide.wf (put : PutSide S i pok B) (hw : S.wf = true) : B.wf = true := by
  cases put with
  | unchanged _ _ mem => rwa [Block.wf, mem]
  | stored d _ _ _ mem => rw [Block.wf, mem]; exact S.store_wf hw d

/-- The queue law of one cycle: the byte got and then what is held after are what was held before and then the byte
accepted. -/
theorem PutSide.got_append_contents (put : PutSide S i pok B) (get : GetSide S i got B) (hN : 1 ≤ N)
    (hw : S.wf = true) :
    got.toList ++ B.contents = S.contents ++ (if pok then (putByte i).toList else []) := by
  cases put with
  | unchanged _ putI mem =>
    cases get with
    | unchanged _ getI => simp [Block.eq_of_parts putI getI mem]
    | taken _ data getI =>
      simp [Block.eq_of_parts (T := S.advanceGet) putI getI mem, S.contents_advanceGet hN data]
  | stored d byte room putI mem =>
    cases get with
    | unchanged _ getI =>
      simp [Block.eq_of_parts (T := S.store d) putI getI mem, byte, S.contents_store hN hw room]
    | taken _ data getI =>
      simp [Block.eq_of_parts (T := (S.store d).advanceGet) putI getI mem, byte,
        Block.contents_store_advanceGet hN hw room data]

/-- A put that fails finds bytes before it, so that the first byte of all is the same whether or not it counts. -/
theorem PutSide.head?_accepted (put : PutSide S i pok B) (hN : 1 ≤ N) (later : List Byte) :
    (S.contents ++ ((if pok then (putByte i).toList else []) ++ later)).head? =
      (S.contents ++ ((putByte i).toList ++ later)).head? := by
  cases put with
  | stored => rfl
  | unchanged why =>
    obtain hnone | hfull := why
    · simp [hnone]
    · simp [List.head?_append_of_ne_nil _ (Block.contents_ne_nil_of_full hN hfull)]

end sides

end Sys2Proof.Machine
end

section
/-!
INIT and NOP (40_init.md): INIT empties the block, a word with `rst = 1` is INIT whatever its other bits, and the first
byte got after an INIT is the first byte put after it.
-/

namespace Sys2Proof.Machine

section clear

variable {N : Nat} (S : Block N)

theorem Block.clear_putI_toNat : S.clear.putI.toNat = 0 := by simp

theorem Block.clear_getI_toNat : S.clear.getI.toNat = 0 := by simp

@[simp] theorem Block.clear_empty : S.clear.empty = true := by simp [Block.empty]

@[simp] theorem Block.clear_count : S.clear.count = 0#N := by simp [Block.count]

theorem Block.clear_full (hN : 1 ≤ N) : S.clear.full = false := Block.not_full_of_empty hN S.clear_empty

end clear

/-- Every spelling of INIT sets `rst` (30_encoding.md R50). -/
theorem decodeWord_eq_init_of_mask {w : CmdWord} (h : w &&& 0x400#11 = 0x400#11) : decodeWord w = .init := by
  induction w using toWord_rows with
  | init P G D => exact decodeWord_toWord_init P G D
  | _ => simp [Inputs.toWord_eq_iff, Inputs.ofWord] at h

/-- Every spelling of NOP clears `rst` and the two enables (30_encoding.md R50). -/
theorem decodeWord_eq_nop_of_mask {w : CmdWord} (h : w &&& 0x700#11 = 0x000#11) : decodeWord w = .nop := by
  induction w using toWord_rows with
  | nop D => exact decodeWord_toWord_nop D
  | _ => simp [Inputs.toWord_eq_iff, Inputs.ofWord] at h

/-- A cycle whose word has `rst = 1` is INIT's (40_init.md R57, R58). -/
theorem step_of_reset {s : State} (h : s.portWord.getLsbD 10 = true) :
    step s = .next (s.takeWord.endCycle .init false none s.takeWord.block.clear) := by
  rw [step, decodeWord_by_bits, if_pos h]
  exact execInit_eq s.takeWord

/-- Settles O2: the word is INIT's, and INIT reads neither the enables nor the byte. -/
theorem resetWordOverridesPutAndGet : Obligations.ResetWordOverridesPutAndGet := by
  intro s hrst
  exact ⟨_, _, step_of_reset hrst, rfl, rfl, rfl, rfl, rfl, s.block.clear_putI_toNat,
    s.block.clear_getI_toNat, rfl⟩

/-- Settles O1: INIT's block has both indices 0, so it is empty, and not full since `C >= 2`. -/
theorem initEmptiesTheFifo : Obligations.InitEmptiesTheFifo := by
  refine ⟨fun w => decodeWord_eq_init_of_mask, fun s =>
    ⟨_, _, execInit_eq s, State.endCycle_cycleOf .., rfl, rfl, ?_⟩⟩
  simp [Block.clear_full _ s.cfg.logCap_pos]

/-- Settles O4: NOP ends its cycle with the block it found. -/
theorem nopChangesNothing : Obligations.NopChangesNothing :=
  ⟨fun _ => decodeWord_eq_nop_of_mask, fun s =>
    ⟨_, _, execNop_eq s, State.endCycle_cycleOf .., ⟨rfl, rfl, rfl⟩, rfl, rfl, rfl, rfl, rfl⟩⟩

/-- The bytes to use of a run are those of its first cycle and then those of the later ones. -/
theorem usableBytes_append_first (later : List CycleRecord) (first : CycleRecord) :
    usableBytes (later ++ [first]) = first.out.usableData.toList ++ usableBytes later := by
  cases h : first.out.usableData <;> simp [usableBytes, h]

/-- Without INIT, the first byte got in a run is the first of what the block held and what the run puts. -/
theorem execAll_first_got {is : List Instr} (his : noInit is = true) {s : State} (hw : s.wf = true) :
    ∃ t r, execAll is s = .next t ∧ t.history = r ++ s.history ∧ r.length = is.length ∧
      ∀ g, (usableBytes r).head? = some g → (s.contents ++ is.filterMap putByte).head? = some g := by
  induction is generalizing s with
  | nil => exact ⟨s, [], rfl, rfl, rfl, by simp [usableBytes]⟩
  | cons i is ih =>
    obtain ⟨hi, his⟩ : i ≠ .init ∧ noInit is = true := by simpa [noInit] using his
    obtain ⟨pok, got, B, hexec, put, get⟩ := exec_sides s hi
    obtain ⟨t, r, hrun, hhist, hlen, hfirst⟩ := ih his (s := s.endCycle i pok got B) (put.wf hw)
    refine ⟨t, r ++ [{ cmd := i, out := s.outputs pok got }], (execAll_cons_next s hexec is).trans hrun,
      by simp [hhist], by simp [hlen], fun g hg => ?_⟩
    have hputs : (i :: is).filterMap putByte = (putByte i).toList ++ is.filterMap putByte := by
      cases h : putByte i <;> simp [h]
    rw [hputs, ← put.head?_accepted s.cfg.logCap_pos, ← List.append_assoc,
      ← put.got_append_contents get s.cfg.logCap_pos hw, List.append_assoc]
    rw [usableBytes_append_first, State.outputs_usableData] at hg
    cases got with
    | some b => exact hg
    | none => exact hfirst g hg

/-- INIT, one put and one get: the byte put is got, and the block is empty again. -/
theorem execAll_init_put_get {s : State} (hw : s.wf = true) (d : Byte) :
    ∃ t, execAll [.init, .put d, .get] s = .next t ∧ usableBytes (t.history.take 3) = [d] ∧ t.contents = [] := by
  have hN := s.cfg.logCap_pos
  have hroom := s.block.clear_full hN
  have hheld : (s.block.clear.store d).contents = [d] := by
    simp [Block.contents_store _ hN (s.block.clear_wf hw) hroom, Block.contents_clear]
  have hdata : (s.block.clear.store d).empty = false := Block.empty_eq_false_iff_contents.2 (by simp [hheld])
  have hget := Block.contents_advanceGet _ hN hdata
  rw [hheld, List.cons.injEq] at hget
  refine ⟨_, (execAll_cons_next _ (execInit_eq s) _).trans ((execAll_cons_next _ (execPut_of_room d hroom) _).trans
    (execAll_cons_next _ (execGet_of_data hdata) _)), ?_, hget.2.symm⟩
  show [(s.block.clear.store d).front] = [d]
  rw [← hget.1]

/-- Settles O3: INIT leaves no contents, so the first byte got in the run after it is the first byte the run puts. -/
theorem initDiscardsTheContents : Obligations.InitDiscardsTheContents := by
  intro s hw
  refine ⟨⟨_, execInit_eq s, s.block.contents_clear⟩, fun is his => ?_, execAll_init_put_get hw⟩
  obtain ⟨t, r, hrun, hhist, hlen, hfirst⟩ :=
    execAll_first_got his (s := s.endCycle .init false none s.block.clear) (s.block.clear_wf hw)
  refine ⟨t, (execAll_cons_next s (execInit_eq s) is).trans hrun, fun g hg => ?_⟩
  rw [hhist, List.take_left' hlen] at hg
  simpa [Block.contents_clear] using hfirst g hg

end Sys2Proof.Machine
end

section
/-!
PUT (41_put.md): when a put succeeds in a cycle of any command, what it does to the slot at the put index and to the
occupancy, and that a put that fails leaves the producer's side of the block as it was.
-/

namespace Sys2Proof.Machine

section occupancy

variable {N : Nat} (S : Block N)

/-- The `empty` output by the occupancy (43_size_flags.md R75). -/
theorem Block.empty_iff_count : S.empty = true ↔ S.count.toNat = 0 := by
  rw [Block.empty_iff_contents, ← List.length_eq_zero_iff, Block.contents_length]

/-- The `full` output by the occupancy: one slot is sacrificed (43_size_flags.md R76, 00_scope.md R7). -/
theorem Block.full_iff_count : S.full = true ↔ S.count.toNat = 2 ^ N - 1 := by
  have hp := S.putI.isLt
  have hg := S.getI.isLt
  have hc := S.count_toNat_cases
  have hn := Block.next_toNat_cases S.putI
  rw [Block.full_toNat, decide_eq_true_eq]
  omega

/-- The slot that a put writes is never live (41_put.md R64). -/
theorem Block.putI_notMem_liveSlots : S.putI.toNat ∉ S.liveSlots := by
  intro hmem
  obtain ⟨k, hk, hslot⟩ := List.mem_map.1 hmem
  exact S.slot_ne_putI (List.mem_range.1 hk) hslot

variable {S}

theorem Block.store_count (hN : 1 ≤ N) (room : S.full = false) (d : Byte) :
    (S.store d).count.toNat = S.count.toNat + 1 := by
  simpa using congrArg List.length (S.liveSlots_store hN room d)

theorem Block.store_empty (hN : 1 ≤ N) (room : S.full = false) (d : Byte) : (S.store d).empty = false := by
  rw [← Bool.not_eq_true, Block.empty_iff_count, Block.store_count hN room d]
  exact Nat.succ_ne_zero _

/-- A put fills the block when it had room for one byte only. -/
theorem Block.store_full_iff (hN : 1 ≤ N) (room : S.full = false) (d : Byte) :
    (S.store d).full = true ↔ S.count.toNat = 2 ^ N - 2 := by
  have h2 := Block.two_le_pow hN
  rw [Block.full_iff_count, Block.store_count hN room d]
  omega

/-- A put stores its byte at the put index and in no other slot (41_put.md R64). -/
theorem Block.store_writes (hw : S.wf = true) (d : Byte) :
    (S.store d).mem.read S.putI.toNat = d ∧
      ∀ a, a ≠ S.putI.toNat → (S.store d).mem.read a = S.mem.read a :=
  ⟨by rw [S.read_store hw, if_pos rfl], fun a ha => by rw [S.read_store hw, if_neg ha]⟩

end occupancy

section sides

variable {N : Nat} {S B : Block N} {i : Instr} {pok : Bool}

/-- A put succeeds exactly when it is requested and there is room (41_put.md R63). -/
theorem PutSide.putOk_eq (put : PutSide S i pok B) : pok = ((putByte i).isSome && !S.full) := by
  cases put with
  | unchanged why =>
    obtain hnone | hfull := why
    · simp [hnone]
    · simp [hfull]
  | stored d byte room => simp [byte, room]

theorem PutSide.unchanged_of_failed (put : PutSide S i false B) : B.putI = S.putI ∧ B.mem = S.mem := by
  cases put with
  | unchanged _ putI mem => exact ⟨putI, mem⟩

/-- The storage and PutI after a put that succeeds are those of `Block.store` (41_put.md R64, R65). -/
theorem PutSide.stored_of_succeeded (put : PutSide S i true B) :
    ∃ d, putByte i = some d ∧ B.putI = (S.store d).putI ∧ B.mem = (S.store d).mem := by
  cases put with
  | stored d byte _ putI mem => exact ⟨d, byte, putI, mem⟩

theorem GetSide.unchanged_of_not_requested {got : Option Byte} (get : GetSide S i got B)
    (h : requestsGet i = false) : B.getI = S.getI := by
  cases get with
  | unchanged _ getI => exact getI
  | taken asked => simp [h] at asked

end sides

/-- Under every command, INIT included, the producer's result is one formula of the request and of `full`; outside INIT
the cycle is its two sides. -/
theorem exec_putOk (i : Instr) (s : State) :
    ∃ pok got B, exec i s = .next (s.endCycle i pok got B) ∧ pok = ((putByte i).isSome && !s.full) ∧
      (i ≠ .init → PutSide s.block i pok B ∧ GetSide s.block i got B) := by
  by_cases hi : i = .init
  · subst hi
    exact ⟨_, _, _, execInit_eq s, rfl, fun h => absurd rfl h⟩
  · obtain ⟨pok, got, B, hexec, put, get⟩ := exec_sides s hi
    exact ⟨pok, got, B, hexec, put.putOk_eq, fun _ => ⟨put, get⟩⟩

/-- The word on the ports requests a put when `put_en = 1` and `rst = 0` (30_encoding.md R51, 41_put.md R62). -/
theorem putByte_decodeWord_isSome (w : CmdWord) :
    (putByte (decodeWord w)).isSome = (w.getLsbD 9 && !w.getLsbD 10) := by
  induction w using toWord_rows <;> simp [putByte]

/-- The word on the ports requests a get when `get_en = 1` and `rst = 0` (30_encoding.md R51, 42_get.md R68). -/
theorem requestsGet_decodeWord (w : CmdWord) :
    requestsGet (decodeWord w) = (w.getLsbD 8 && !w.getLsbD 10) := by
  induction w using toWord_rows <;> simp [requestsGet]

/-- A word is a spelling of INIT exactly when `rst = 1` (30_encoding.md R50). -/
theorem decodeWord_eq_init_iff (w : CmdWord) : decodeWord w = .init ↔ w.getLsbD 10 = true := by
  induction w using toWord_rows <;> simp

/-- One cycle under the word on the ports: its result `put_ok` by the word's bits, and its two sides when `rst = 0`. -/
theorem step_putOk (s : State) :
    ∃ pok got B, step s = .next (s.takeWord.endCycle (decodeWord s.portWord) pok got B) ∧
      pok = (s.portWord.getLsbD 9 && !s.portWord.getLsbD 10 && !s.full) ∧
      (s.portWord.getLsbD 10 = false →
        PutSide s.block (decodeWord s.portWord) pok B ∧ GetSide s.block (decodeWord s.portWord) got B) := by
  obtain ⟨pok, got, B, hstep, hpok, hsides⟩ := exec_putOk (decodeWord s.portWord) s.takeWord
  rw [putByte_decodeWord_isSome] at hpok
  refine ⟨pok, got, B, hstep, hpok, fun hrst => hsides fun hinit => ?_⟩
  rw [(decodeWord_eq_init_iff _).1 hinit] at hrst
  exact absurd hrst (by decide)

/-- Settles O5: a full block ends the cycle as it was, any other one with the byte stored behind its contents. -/
theorem putStoresTheByteOrFails : Obligations.PutStoresTheByteOrFails := by
  refine ⟨fun d => decodeWord_encodeWord (.put d), fun s d hw => ?_⟩
  have hN := s.cfg.logCap_pos
  rcases Bool.eq_false_or_eq_true s.full with hf | hf
  · exact ⟨_, _, execPut_of_full d hf, State.endCycle_cycleOf .., by simp [hf], s.block.full_iff_count, rfl, rfl,
      fun _ => ⟨rfl, rfl, rfl⟩, fun room => absurd (hf.symm.trans room) (by decide)⟩
  · obtain ⟨hbyte, hother⟩ := Block.store_writes hw d
    exact ⟨_, _, execPut_of_room d hf, State.endCycle_cycleOf .., by simp [hf], s.block.full_iff_count, rfl, rfl,
      fun full => absurd (hf.symm.trans full) (by decide), fun _ => ⟨Block.next_toNat _, hbyte, hother,
        Block.store_count hN hf d, Block.store_empty hN hf d, Block.store_full_iff hN hf d⟩⟩

/-- Settles O8: `put_ok` of the word's command is read off the word's two upper bits and the start state's `full`. -/
theorem putOkIsEnabledAndNotFull : Obligations.PutOkIsEnabledAndNotFull := by
  intro s
  obtain ⟨pok, got, B, hstep, hpok, -⟩ := step_putOk s
  exact ⟨_, _, hstep, rfl, hpok⟩

/-- Settles O10: a command whose put succeeds is not INIT, so its producer's side stored the byte in the slot at PutI,
which is never live. -/
theorem successfulPutWritesOneFreeSlot : Obligations.SuccessfulPutWritesOneFreeSlot := by
  intro i s hw
  obtain ⟨pok, got, B, hexec, hpok, hsides⟩ := exec_putOk i s
  refine ⟨_, _, hexec, State.endCycle_cycleOf .., fun hok => ?_, fun hfail hi => ?_⟩
  · obtain rfl : pok = true := hok
    have hi : i ≠ .init := by
      rintro rfl
      simp [putByte] at hpok
    obtain ⟨put, -⟩ := hsides hi
    obtain ⟨d, hd, hputI, hmem⟩ := put.stored_of_succeeded
    obtain ⟨hbyte, hother⟩ := Block.store_writes hw d
    rw [← hmem] at hbyte hother
    refine ⟨d, hd, hbyte, hother, s.block.putI_notMem_liveSlots, ?_⟩
    rw [State.endCycle_putI, hputI]
    exact Block.next_toNat _
  · obtain rfl : pok = false := hfail
    obtain ⟨put, -⟩ := hsides hi
    obtain ⟨hputI, -⟩ := put.unchanged_of_failed
    exact congrArg BitVec.toNat hputI

/-- Settles O12: `full` is the occupancy `C - 1`, and a side of the cycle that fails or is not asked changes nothing. -/
theorem failedPutChangesNothing : Obligations.FailedPutChangesNothing := by
  intro s hen
  obtain ⟨pok, got, B, hstep, hpok, hsides⟩ := step_putOk s
  refine ⟨_, _, hstep, rfl, ?_, fun hfail hrst => ?_⟩
  · rw [State.outputs_putOk, hpok, s.capacity_eq, ← s.block.full_iff_count, hen]
    simp only [Bool.true_and, Bool.and_eq_false_iff, Bool.not_eq_false', or_comm]
  · obtain rfl : pok = false := hfail
    obtain ⟨put, get⟩ := hsides hrst
    obtain ⟨hputI, hmem⟩ := put.unchanged_of_failed
    refine ⟨congrArg BitVec.toNat hputI, hmem, fun hnoGet => ?_⟩
    exact congrArg BitVec.toNat (get.unchanged_of_not_requested (by rw [requestsGet_decodeWord, hnoGet]; rfl))

end Sys2Proof.Machine
end

section
/-!
GET (42_get.md): when a get succeeds in a cycle of any command, which byte it shows and what it does to the occupancy,
and that a get that fails leaves the consumer's side of the block as it was.
-/

namespace Sys2Proof.Machine

section occupancy

variable {N : Nat} {S : Block N}

/-- The slot that a get reads is the oldest live one (42_get.md R70, 10_state.md R24). -/
theorem Block.getI_mem_liveSlots (hN : 1 ≤ N) (data : S.empty = false) : S.getI.toNat ∈ S.liveSlots := by
  rw [S.liveSlots_advanceGet hN data]
  exact List.mem_cons_self

/-- The byte that a get shows is the oldest one held (42_get.md R70). -/
theorem Block.contents_head? (hN : 1 ≤ N) (data : S.empty = false) : S.contents.head? = some S.front := by
  rw [S.contents_advanceGet hN data, List.head?_cons]

theorem Block.advanceGet_count (hN : 1 ≤ N) (data : S.empty = false) :
    S.advanceGet.count.toNat + 1 = S.count.toNat := by
  simpa using (congrArg List.length (S.liveSlots_advanceGet hN data)).symm

/-- After a get the slot that it read is free, so the block is not full. -/
theorem Block.advanceGet_full (hN : 1 ≤ N) (data : S.empty = false) : S.advanceGet.full = false := by
  have hcount := Block.advanceGet_count hN data
  have hlt := S.count.isLt
  rw [← Bool.not_eq_true, Block.full_iff_count]
  omega

/-- A get empties the block when it held one byte only. -/
theorem Block.advanceGet_empty_iff (hN : 1 ≤ N) (data : S.empty = false) :
    S.advanceGet.empty = true ↔ S.count.toNat = 1 := by
  rw [Block.empty_iff_count, ← Block.advanceGet_count hN data, Nat.add_eq_right]

end occupancy

section sides

variable {N : Nat} {S B : Block N} {i : Instr}

/-- A get succeeds exactly when it is requested and a byte is held (42_get.md R69). -/
theorem GetSide.isSome_eq {got : Option Byte} (get : GetSide S i got B) :
    got.isSome = (requestsGet i && !S.empty) := by
  cases get with
  | unchanged why =>
    obtain hnone | hempty := why
    · simp [hnone]
    · simp [hempty]
  | taken asked data => simp [asked, data]

theorem GetSide.unchanged_of_failed (get : GetSide S i none B) : B.getI = S.getI := by
  cases get with
  | unchanged _ getI => exact getI

/-- The byte and GetI of a get that succeeds are those of `Block.front` and `Block.advanceGet` (42_get.md R70, R71). -/
theorem GetSide.taken_of_succeeded {b : Byte} (get : GetSide S i (some b) B) :
    b = S.front ∧ S.empty = false ∧ B.getI = S.advanceGet.getI := by
  cases get with
  | taken _ data getI => exact ⟨rfl, data, getI⟩

theorem PutSide.unchanged_of_not_requested {pok : Bool} (put : PutSide S i pok B) (h : putByte i = none) :
    B.putI = S.putI ∧ B.mem = S.mem := by
  cases put with
  | unchanged _ putI mem => exact ⟨putI, mem⟩
  | stored d byte => simp [h] at byte

end sides

/-- Under every command, INIT included, the consumer's result is one formula of the request and of `empty`; outside
INIT the cycle is its two sides. -/
theorem exec_getOk (i : Instr) (s : State) :
    ∃ pok got B, exec i s = .next (s.endCycle i pok got B) ∧ got.isSome = (requestsGet i && !s.empty) ∧
      (i ≠ .init → PutSide s.block i pok B ∧ GetSide s.block i got B) := by
  by_cases hi : i = .init
  · subst hi
    exact ⟨_, _, _, execInit_eq s, rfl, fun h => absurd rfl h⟩
  · obtain ⟨pok, got, B, hexec, put, get⟩ := exec_sides s hi
    exact ⟨pok, got, B, hexec, get.isSome_eq, fun _ => ⟨put, get⟩⟩

/-- One cycle under the word on the ports: its result `get_ok` by the word's bits, and its two sides when `rst = 0`. -/
theorem step_getOk (s : State) :
    ∃ pok got B, step s = .next (s.takeWord.endCycle (decodeWord s.portWord) pok got B) ∧
      got.isSome = (s.portWord.getLsbD 8 && !s.portWord.getLsbD 10 && !s.empty) ∧
      (s.portWord.getLsbD 10 = false →
        PutSide s.block (decodeWord s.portWord) pok B ∧ GetSide s.block (decodeWord s.portWord) got B) := by
  obtain ⟨pok, got, B, hstep, hgot, hsides⟩ := exec_getOk (decodeWord s.portWord) s.takeWord
  rw [requestsGet_decodeWord] at hgot
  exact ⟨pok, got, B, hstep, hgot, fun hrst => hsides (by rw [ne_eq, decodeWord_eq_init_iff, hrst]; decide)⟩

/-- Every spelling of GET sets `get_en` and clears `rst` and `put_en` (30_encoding.md R50). -/
theorem decodeWord_eq_get_of_mask {w : CmdWord} (h : w &&& 0x700#11 = 0x100#11) : decodeWord w = .get := by
  induction w using toWord_rows with
  | get D => exact decodeWord_toWord_get D
  | _ => simp [Inputs.toWord_eq_iff, Inputs.ofWord] at h

/-- Settles O6: an empty block ends the cycle as it was, any other one without the byte at its get index. -/
theorem getTakesTheOldestByteOrFails : Obligations.GetTakesTheOldestByteOrFails := by
  refine ⟨fun w => decodeWord_eq_get_of_mask, fun s => ?_⟩
  have hN := s.cfg.logCap_pos
  cases he : s.empty with
  | true =>
    exact ⟨_, _, execGet_of_empty he, State.endCycle_cycleOf .., rfl, he ▸ s.block.empty_iff_count, rfl,
      rfl, rfl, fun _ => ⟨rfl, rfl, rfl⟩, nofun⟩
  | false =>
    exact ⟨_, _, execGet_of_data he, State.endCycle_cycleOf .., rfl, he ▸ s.block.empty_iff_count, rfl,
      rfl, rfl, nofun, fun _ => ⟨rfl, Block.next_toNat _, Block.advanceGet_count hN he,
        Block.advanceGet_full hN he, Block.advanceGet_empty_iff hN he⟩⟩

/-- Settles O9: `get_ok` of the word's command is read off bits 8 and 10 of the word and the start state's `empty`. -/
theorem getOkIsEnabledAndNotEmpty : Obligations.GetOkIsEnabledAndNotEmpty := by
  intro s
  obtain ⟨pok, got, B, hstep, hgot, -⟩ := step_getOk s
  exact ⟨_, _, hstep, rfl, hgot⟩

/-- Settles O11: a command whose get succeeds is not INIT, so its consumer's side took the front byte, the first one
held. -/
theorem successfulGetShowsTheOldestByte : Obligations.SuccessfulGetShowsTheOldestByte := by
  intro i s
  have hN := s.cfg.logCap_pos
  obtain ⟨pok, got, B, hexec, hgot, hsides⟩ := exec_getOk i s
  refine ⟨_, _, hexec, State.endCycle_cycleOf .., fun hok => ?_, fun hfail hi => ?_⟩
  · obtain ⟨b, rfl⟩ : ∃ b, got = some b := Option.isSome_iff_exists.1 hok
    have hi : i ≠ .init := by
      rintro rfl
      simp [requestsGet] at hgot
    obtain ⟨-, get⟩ := hsides hi
    obtain ⟨rfl, hdata, hgetI⟩ := get.taken_of_succeeded
    refine ⟨rfl, Block.contents_head? hN hdata, Block.getI_mem_liveSlots hN hdata, ?_⟩
    rw [State.endCycle_getI, hgetI]
    exact Block.next_toNat _
  · obtain rfl : got = none := by simpa using hfail
    obtain ⟨-, get⟩ := hsides hi
    exact congrArg BitVec.toNat get.unchanged_of_failed

/-- Settles O13: `empty` is the occupancy 0, and a side of the cycle that fails or is not asked changes nothing. -/
theorem failedGetChangesNothing : Obligations.FailedGetChangesNothing := by
  intro s hen
  obtain ⟨pok, got, B, hstep, hgot, hsides⟩ := step_getOk s
  refine ⟨_, _, hstep, rfl, ?_, fun hfail hrst => ?_⟩
  · rw [State.outputs_getOk, hgot, ← s.block.empty_iff_count, hen]
    simp only [Bool.true_and, Bool.and_eq_false_iff, Bool.not_eq_false', or_comm]
  · obtain rfl : got = none := by simpa using hfail
    obtain ⟨put, get⟩ := hsides hrst
    refine ⟨congrArg BitVec.toNat get.unchanged_of_failed, fun hnoPut => ?_⟩
    have hnone : putByte (decodeWord s.portWord) = none := by
      rw [← Option.not_isSome_iff_eq_none, putByte_decodeWord_isSome, hnoPut]
      exact Bool.false_ne_true
    obtain ⟨hputI, hmem⟩ := put.unchanged_of_not_requested hnone
    exact ⟨congrArg BitVec.toNat hputI, hmem⟩

end Sys2Proof.Machine
end

section
/-!
The status outputs (43_size_flags.md): the occupancy and the two flags as equations of the index numbers.
-/

namespace Sys2Proof.Machine

section indices

variable {N : Nat} (S : Block N)

/-- The register subtraction that gives the occupancy, as one of numbers modulo `C` (43_size_flags.md R74). -/
theorem Block.count_toNat : S.count.toNat = (S.putI.toNat + 2 ^ N - S.getI.toNat) % 2 ^ N := by
  have hg := S.getI.isLt
  rw [Block.count, BitVec.toNat_sub, Nat.add_comm, Nat.add_sub_assoc hg.le]

/-- The `empty` output by the index numbers (43_size_flags.md R75). -/
theorem Block.empty_iff_indices : S.empty = true ↔ S.putI.toNat = S.getI.toNat := by
  rw [Block.empty_toNat, decide_eq_true_eq]

/-- The `full` output by the index numbers (43_size_flags.md R76). -/
theorem Block.full_iff_indices : S.full = true ↔ (S.putI.toNat + 1) % 2 ^ N = S.getI.toNat := by
  rw [Block.full_toNat, decide_eq_true_eq, Block.next_toNat]

end indices

/-- Settles O20: each clause is a rule of the block's two indices or of its occupancy, which is below `C` as an `N`-bit
number. -/
theorem statusOutputsFollowTheIndices : Obligations.StatusOutputsFollowTheIndices := by
  intro s
  exact ⟨s.block.count_toNat, Nat.le_sub_one_of_lt s.block.count.isLt, s.block.empty_iff_indices,
    s.block.empty_iff_count, s.block.full_iff_indices, s.block.full_iff_count⟩

end Sys2Proof.Machine
end

section
/-!
PUTGET (44_put_get.md section 1): each side of a cycle is decided by the start state and its own request, and a put and
a get that both succeed touch different slots, so that the get shows the same byte before and after the put's write.
-/

namespace Sys2Proof.Machine

section sides

variable {N : Nat} {S B B' : Block N} {i j : Instr}

/-- The producer's result, PutI and the storage depend on the start state and the byte to put alone, whatever the
consumer asks (44_put_get.md R81). -/
theorem PutSide.eq_of_putByte_eq {pok pok' : Bool} (put : PutSide S i pok B) (put' : PutSide S j pok' B')
    (request : putByte i = putByte j) : pok = pok' ∧ B.putI = B'.putI ∧ B.mem = B'.mem := by
  obtain rfl : pok = pok' := by rw [put.putOk_eq, put'.putOk_eq, request]
  cases pok with
  | false =>
    obtain ⟨hputI, hmem⟩ := put.unchanged_of_failed
    obtain ⟨hputI', hmem'⟩ := put'.unchanged_of_failed
    exact ⟨rfl, hputI.trans hputI'.symm, hmem.trans hmem'.symm⟩
  | true =>
    obtain ⟨d, hd, hputI, hmem⟩ := put.stored_of_succeeded
    obtain ⟨d', hd', hputI', hmem'⟩ := put'.stored_of_succeeded
    obtain rfl : d = d' := Option.some.inj (hd.symm.trans (request.trans hd'))
    exact ⟨rfl, hputI.trans hputI'.symm, hmem.trans hmem'.symm⟩

/-- The consumer's result, byte and GetI depend on the start state and whether a get is asked alone, whatever the
producer asks (44_put_get.md R81). -/
theorem GetSide.eq_of_requestsGet_eq {got got' : Option Byte} (get : GetSide S i got B) (get' : GetSide S j got' B')
    (request : requestsGet i = requestsGet j) : got = got' ∧ B.getI = B'.getI := by
  have hsome : got.isSome = got'.isSome := by rw [get.isSome_eq, get'.isSome_eq, request]
  match got, got' with
  | none, none => exact ⟨rfl, get.unchanged_of_failed.trans get'.unchanged_of_failed.symm⟩
  | some b, some b' =>
    obtain ⟨rfl, -, hgetI⟩ := get.taken_of_succeeded
    obtain ⟨rfl, -, hgetI'⟩ := get'.taken_of_succeeded
    exact ⟨rfl, hgetI.trans hgetI'.symm⟩
  | none, some _ | some _, none => simp at hsome

end sides

/-- Settles O14: the producer's side of a PUTGET is that of the PUT alone, the consumer's that of the GET alone. -/
theorem noBypassInEitherDirection : Obligations.NoBypassInEitherDirection := by
  intro s d
  obtain ⟨pok, got, B, hboth, put, get⟩ := exec_sides s (i := .putget d) nofun
  obtain ⟨pokp, gotp, Bp, hput, putAlone, -⟩ := exec_sides s (i := .put d) nofun
  obtain ⟨pokg, gotg, Bg, hget, -, getAlone⟩ := exec_sides s (i := .get) nofun
  obtain ⟨hpok, hputI, hmem⟩ := put.eq_of_putByte_eq putAlone rfl
  obtain ⟨hgot, hgetI⟩ := get.eq_of_requestsGet_eq getAlone rfl
  exact ⟨_, _, _, _, _, _, hboth, State.endCycle_cycleOf .., hput, State.endCycle_cycleOf ..,
    hget, State.endCycle_cycleOf .., fun hempty => get.isSome_eq.trans (by simp [hempty]),
    fun hfull => put.putOk_eq.trans (by simp [hfull]), hpok, congrArg Option.isSome hgot,
    congrArg BitVec.toNat hputI, hmem, congrArg BitVec.toNat hgetI, by simp [hgot]⟩

section disjoint

variable {N : Nat} {S : Block N}

/-- While a byte is held, the slot to write is not the slot to read (44_put_get.md R82). -/
theorem Block.putI_ne_getI (data : S.empty = false) : S.putI.toNat ≠ S.getI.toNat := by
  rwa [S.empty_toNat, decide_eq_false_iff_not] at data

/-- A put leaves the byte that a get shows as it is (44_put_get.md R82, R83). -/
theorem Block.store_front (hw : S.wf = true) (data : S.empty = false) (d : Byte) : (S.store d).front = S.front := by
  obtain ⟨-, hother⟩ := Block.store_writes hw d
  exact hother _ (Block.putI_ne_getI data).symm

/-- The put's writes and the get's writes are of different registers (44_put_get.md R83). -/
theorem Block.store_advanceGet (d : Byte) : (S.store d).advanceGet = S.advanceGet.store d := rfl

end disjoint

/-- Settles O15: the slot at PutI is never live, and the slot at GetI is the first live one while a byte is held. -/
theorem sameCycleAccessesAreDisjoint : Obligations.SameCycleAccessesAreDisjoint := by
  intro s d hroom hdata hw
  exact ⟨_, _, execPutget_of_both d hroom hdata, State.endCycle_cycleOf .., rfl, rfl, Block.putI_ne_getI hdata,
    s.block.putI_notMem_liveSlots, Block.getI_mem_liveSlots s.cfg.logCap_pos hdata, s.block.read_store hw d,
    Block.store_front hw hdata d⟩

/-- Settles O16: the two orders write the same registers, and the put's write is not in the slot that the get reads. -/
theorem sameCyclePutAndGetCommute : Obligations.SameCyclePutAndGetCommute := by
  intro s d hroom hdata hw
  have hfront := Block.store_front hw hdata d
  refine ⟨Block.store_advanceGet d, hfront, ?_⟩
  rw [hfront]
  exact execPutget_of_both d hroom hdata

end Sys2Proof.Machine
end

section
/-!
The cycle function (44_put_get.md R84): over the raw inputs of a word it answers the block and the outputs that the
meaning of the word's command answers.
-/

namespace Sys2Proof.Machine

/-- The byte that a word asks to put is the one on `put_data` (30_encoding.md R47, R51). -/
theorem putByte_decodeWord_eq_some {w : CmdWord} {d : Byte} (h : putByte (decodeWord w) = some d) :
    d = (Inputs.ofWord w).putData := by
  revert h
  induction w using toWord_rows <;> simp +contextual [putByte]

section sides

variable {N : Nat} {S B : Block N} {w : CmdWord} {pok : Bool} {got : Option Byte}

/-- The cycle function's `pok` is the result of the producer's side (41_put.md R63). -/
theorem PutSide.putSucceeds_eq (put : PutSide S (decodeWord w) pok B) : putSucceeds S (Inputs.ofWord w) = pok := by
  rw [put.putOk_eq, putByte_decodeWord_isSome]
  rfl

/-- The cycle function's `gok` is the result of the consumer's side (42_get.md R69). -/
theorem GetSide.getSucceeds_eq (get : GetSide S (decodeWord w) got B) :
    getSucceeds S (Inputs.ofWord w) = got.isSome := by
  rw [get.isSome_eq, requestsGet_decodeWord]
  rfl

/-- With `rst = 1` the cycle function is INIT: both results 0 and the cleared block. -/
theorem cycle_of_reset {p : Inputs} (hrst : p.rst = true) (any : Byte) :
    cycle S p any = (S.clear, outputsOf S false none any) := by
  simp [cycle, putSucceeds, getSucceeds, hrst, outputsOf, Block.clear]

/-- With `rst = 0` the cycle function answers the block and the outputs of the word's two sides. -/
theorem cycle_of_sides (hrst : w.getLsbD 10 = false) (put : PutSide S (decodeWord w) pok B)
    (get : GetSide S (decodeWord w) got B) (any : Byte) :
    cycle S (Inputs.ofWord w) any = (B, outputsOf S pok got any) := by
  have hport : (Inputs.ofWord w).rst = false := hrst
  simp only [cycle, put.putSucceeds_eq, get.getSucceeds_eq, hport, Bool.false_eq_true, if_false]
  refine Prod.ext (Block.eq_of_parts ?putI ?getI ?mem) ?outputs
  case putI =>
    cases put with
    | unchanged _ putI => exact putI.symm
    | stored _ _ _ putI => exact putI.symm
  case getI =>
    cases get with
    | unchanged _ getI => exact getI.symm
    | taken _ _ getI => exact getI.symm
  case mem =>
    cases put with
    | unchanged _ _ mem => exact mem.symm
    | stored d byte _ _ mem =>
      rw [← putByte_decodeWord_eq_some byte]
      exact mem.symm
  case outputs =>
    cases get with
    | unchanged => rfl
    | taken => rfl

end sides

/-- Under every word one cycle ends with the block and the outputs of the cycle function. -/
theorem step_cycle (s : State) :
    ∃ pok got B, step s = .next (s.takeWord.endCycle (decodeWord s.portWord) pok got B) ∧
      ∀ any, cycle s.block (Inputs.ofWord s.portWord) any = (B, outputsOf s.block pok got any) := by
  cases hrst : s.portWord.getLsbD 10 with
  | true =>
    refine ⟨_, _, _, ?_, cycle_of_reset (p := Inputs.ofWord s.portWord) hrst⟩
    rw [(decodeWord_eq_init_iff _).2 hrst]
    exact step_of_reset hrst
  | false =>
    obtain ⟨pok, got, B, hstep, -, hsides⟩ := step_putOk s
    obtain ⟨put, get⟩ := hsides hrst
    exact ⟨pok, got, B, hstep, cycle_of_sides hrst put get⟩

/-- Settles O17: the end of the cycle puts the cycle function's block and outputs in the state, `any` being the draw
that the counter names. -/
theorem cycleFunctionGivesEveryCommand : Obligations.CycleFunctionGivesEveryCommand := by
  intro s
  obtain ⟨pok, got, B, hstep, hcycle⟩ := step_cycle s
  refine ⟨Config.anyByte s.draws, ?_⟩
  rw [hstep, hcycle]
  rfl

end Sys2Proof.Machine
end

section
/-!
Every cycle completes (60_exceptions.md R91): whatever the command and the state, the meaning ends in the cycle's closing
edge (`State.endCycle`), which answers a next state and advances the cycle number by 1.
-/

namespace Sys2Proof.Machine

/-- No command faults or is refused in any state: full, empty or reset, the cycle ends in a next state. -/
theorem exec_completes (i : Instr) (s : State) : Completes (exec i s) := by
  obtain ⟨pok, got, B, hexec, -⟩ := exec_shape s i
  exact ⟨_, hexec⟩

/-- One step keeps the parameter, takes one word off the ports and is one cycle (10_state.md R20). -/
theorem step_advances_cycle (s : State) :
    ∃ t, step s = .next t ∧ t.cfg = s.cfg ∧ t.cycle = s.cycle + 1 ∧ t.commands = s.commands.tail := by
  obtain ⟨pok, got, B, hstep, -⟩ := exec_shape s.takeWord (decodeWord s.portWord)
  have frame := State.endCycle_cycleOf s.takeWord (decodeWord s.portWord) pok got B
  exact ⟨_, hstep, frame.cfg, frame.cycle, frame.commands⟩

/-- Settles O18: every command under every state ends a cycle, and so does the word on the ports. -/
theorem everyCycleCompletes : Obligations.EveryCycleCompletes :=
  ⟨exec_completes, step_advances_cycle⟩

end Sys2Proof.Machine
end

section
/-!
After a reset (70_reset_and_hazards.md): a cycle with `rst = 1` leaves an empty block, whose next cycle can put and
cannot get whatever the command, and an empty block takes `C - 1` puts in a row and no more.
-/

namespace Sys2Proof.Machine

/-- Under every command, INIT included, both results of the cycle by what is requested and by the flags of its start
state (41_put.md R63, 42_get.md R69). -/
theorem exec_results (i : Instr) (s : State) :
    ∃ pok got B, exec i s = .next (s.endCycle i pok got B) ∧ pok = ((putByte i).isSome && !s.full) ∧
      got.isSome = (requestsGet i && !s.empty) := by
  by_cases hi : i = .init
  · subst hi
    exact ⟨_, _, _, execInit_eq s, rfl, rfl⟩
  · obtain ⟨pok, got, B, hexec, put, get⟩ := exec_sides s hi
    exact ⟨pok, got, B, hexec, put.putOk_eq, get.isSome_eq⟩

/-- The cycle of an empty block shows the flags of an empty FIFO; a put succeeds in it and a get fails. -/
theorem exec_of_empty (i : Instr) {s : State} (he : s.empty = true) :
    ∃ t o, exec i s = .next t ∧ CycleOf i s t o ∧ o.empty = true ∧ o.full = false ∧ o.count = 0 ∧
      o.putOk = (putByte i).isSome ∧ o.getOk = false := by
  obtain ⟨pok, got, B, hexec, hpok, hgot⟩ := exec_results i s
  have hroom : s.full = false := Block.not_full_of_empty s.cfg.logCap_pos he
  exact ⟨_, _, hexec, State.endCycle_cycleOf .., he, hroom, s.block.empty_iff_count.1 he,
    by simp [hpok, hroom], by simp [hgot, he]⟩

/-- Settles O27: the word is INIT's, and INIT's block is empty. -/
theorem anyResetCycleGivesTheResetState : Obligations.AnyResetCycleGivesTheResetState := by
  intro s j hrst
  exact ⟨_, step_of_reset hrst, s.block.clear_putI_toNat, s.block.clear_getI_toNat, rfl, s.block.contents_clear,
    exec_of_empty j s.block.clear_empty⟩

/-- A block is not full while fewer than `C - 1` bytes are held (43_size_flags.md R76). -/
theorem Block.full_eq_false_of_count_lt {N : Nat} {S : Block N} (h : S.count.toNat < 2 ^ N - 1) : S.full = false := by
  rw [← Bool.not_eq_true, Block.full_iff_count]
  exact h.ne

/-- Puts in a row that fit in the free space all succeed, and their bytes stand behind what was held. -/
theorem execAll_puts (ds : List Byte) {s : State} (hw : s.wf = true)
    (hfit : s.block.count.toNat + ds.length ≤ 2 ^ s.cfg.logCap - 1) :
    ∃ t r, execAll (ds.map .put) s = .next t ∧ t.history = r ++ s.history ∧ r.length = ds.length ∧
      (∀ c ∈ r, c.out.putOk = true) ∧ t.contents = s.contents ++ ds ∧ t.cfg = s.cfg := by
  induction ds generalizing s with
  | nil => exact ⟨s, [], rfl, rfl, rfl, nofun, (List.append_nil _).symm, rfl⟩
  | cons d ds ih =>
    have hN := s.cfg.logCap_pos
    rw [List.length_cons] at hfit
    have hroom : s.block.full = false := Block.full_eq_false_of_count_lt (by omega)
    have hfit' : (s.block.store d).count.toNat + ds.length ≤ 2 ^ s.cfg.logCap - 1 := by
      rw [Block.store_count hN hroom]
      omega
    obtain ⟨t, r, hrun, hhist, hlen, hok, hcontents, hcfg⟩ :=
      ih (s := s.endCycle (.put d) true none (s.block.store d)) (s.block.store_wf hw d) hfit'
    refine ⟨t, r ++ [{ cmd := .put d, out := s.outputs true none }],
      (execAll_cons_next s (execPut_of_room d hroom) _).trans hrun, by simp [hhist], by simp [hlen], ?_, ?_, hcfg⟩
    · simpa [or_imp, forall_and] using hok
    · rw [hcontents, State.endCycle_contents, Block.contents_store _ hN hw hroom, List.append_assoc,
        List.singleton_append]

/-- Settles O41: the `C - 1` puts just fit, and the block that holds their bytes is full. -/
theorem theCapacityThPutFails : Obligations.TheCapacityThPutFails := by
  intro s ds d hw he hlen
  have hfit : s.block.count.toNat + ds.length ≤ 2 ^ s.cfg.logCap - 1 := by
    rw [s.block.empty_iff_count.1 he, Nat.zero_add, hlen, s.capacity_eq]
  obtain ⟨t, r, hrun, hhist, hr, hok, hcontents, hcfg⟩ := execAll_puts ds hw hfit
  have hnil : s.contents = [] := Block.empty_iff_contents.1 he
  have hheld : t.contents = ds := by rw [hcontents, hnil, List.nil_append]
  have hcount : t.block.count.toNat = ds.length := by
    rw [← Block.contents_length]
    exact congrArg List.length hheld
  have hfull : t.block.full = true := by
    rw [Block.full_iff_count, hcount, hlen, s.capacity_eq, hcfg]
  refine ⟨t, hrun, hheld, ?_, _, _, execPut_of_full d hfull, State.endCycle_cycleOf .., rfl, hheld⟩
  rwa [hhist, List.take_left' hr]

end Sys2Proof.Machine
end

section
/-!
Runs of several cycles: a run as a fact with names for what it leaves around the block, built cycle by cycle, so that a
statement about a stream is an induction over its commands.
-/

namespace Sys2Proof.Machine

/-- The commands `is`, applied in order from `s`, end in `t`, with the cycles `r` put on record, the latest first. -/
structure RunsTo (is : List Instr) (s : State) (r : List CycleRecord) (t : State) : Prop where
  run : execAll is s = .next t
  history : t.history = r ++ s.history
  length : r.length = is.length
  cycle : t.cycle = s.cycle + is.length
  cfg : t.cfg = s.cfg

namespace RunsTo

variable {i : Instr} {is : List Instr} {s t : State} {r : List CycleRecord}

theorem nil (s : State) : RunsTo [] s [] s := ⟨rfl, rfl, rfl, rfl, rfl⟩

/-- A first cycle and a run from where it ends are a run, with the record of the first cycle last. -/
theorem cons {pok : Bool} {got : Option Byte} {B : Block s.cfg.logCap}
    (first : exec i s = .next (s.endCycle i pok got B)) (rest : RunsTo is (s.endCycle i pok got B) r t) :
    RunsTo (i :: is) s (r ++ [{ cmd := i, out := s.outputs pok got }]) t where
  run := (execAll_cons_next s first is).trans rest.run
  history := by simp [rest.history]
  length := by simp [rest.length]
  cycle := by simp [rest.cycle, Nat.add_assoc, Nat.add_comm 1]
  cfg := rest.cfg

/-- The latest records are those of the run. -/
theorem take_history_of_length (h : RunsTo is s r t) {n : Nat} (hn : is.length = n) : t.history.take n = r := by
  rw [h.history, List.take_left' (h.length.trans hn)]

theorem take_history (h : RunsTo is s r t) : t.history.take is.length = r := h.take_history_of_length rfl

end RunsTo

/-- What every cycle keeps, every run keeps. -/
theorem exists_runsTo_of_invariant {P : State → Prop}
    (keep : ∀ (i : Instr) (s t : State), P s → exec i s = .next t → P t) (is : List Instr) {s : State} (h : P s) :
    ∃ r t, RunsTo is s r t ∧ P t := by
  induction is generalizing s with
  | nil => exact ⟨_, _, .nil s, h⟩
  | cons i is ih =>
    obtain ⟨pok, got, B, hexec, -⟩ := exec_shape s i
    obtain ⟨r, t, hrun, ht⟩ := ih (keep i s _ h hexec)
    exact ⟨_, _, .cons hexec hrun, ht⟩

end Sys2Proof.Machine
end

section
/-!
The block as a bounded queue (44_put_get.md section 3): one cycle of any command is a row of the queue's table, so the
contents alone decide what a stream of commands shows.
-/

namespace Sys2Proof.Machine

section contents

variable {N : Nat} {S : Block N}

/-- The `full` output says that `C - 1` bytes are held (43_size_flags.md R76, 10_state.md R24). -/
theorem Block.full_iff_contents : S.full = true ↔ S.contents.length = 2 ^ N - 1 := by
  rw [Block.contents_length, Block.full_iff_count]

/-- A block has room while it holds fewer than `C - 1` bytes, the condition of the queue's table. -/
theorem Block.contents_length_lt_iff : S.contents.length < 2 ^ N - 1 ↔ S.full = false := by
  have hlt := S.count.isLt
  rw [← Bool.not_eq_true, Block.full_iff_count, Block.contents_length]
  omega

end contents

/-- One cycle of any command is the queue's step on the contents, and keeps the storage's form (44_put_get.md R85). -/
theorem exec_queueStep (i : Instr) {s : State} (hw : s.wf = true) :
    ∃ pok got B, exec i s = .next (s.endCycle i pok got B) ∧ B.wf = true ∧
      queueStep s.capacity i s.contents = ⟨B.contents, pok, got⟩ := by
  have hN := s.cfg.logCap_pos
  have hroom : s.contents.length < s.capacity - 1 ↔ s.block.full = false := Block.contents_length_lt_iff
  cases i with
  | nop => exact ⟨_, _, _, execNop_eq s, hw, rfl⟩
  | init => exact ⟨_, _, _, execInit_eq s, s.block.clear_wf hw, by rw [Block.contents_clear]; rfl⟩
  | put d =>
    cases hf : s.block.full with
    | true =>
      exact ⟨_, _, _, execPut_of_full d hf, hw, by rw [queueStep, if_neg (mt hroom.1 (by simp [hf]))]⟩
    | false =>
      refine ⟨_, _, _, execPut_of_room d hf, s.block.store_wf hw d, ?_⟩
      rw [queueStep, if_pos (hroom.2 hf), Block.contents_store _ hN hw hf]
  | get =>
    cases he : s.block.empty with
    | true =>
      have hnil : s.contents = [] := Block.empty_iff_contents.1 he
      exact ⟨_, _, _, execGet_of_empty he, hw, by simp [queueStep, hnil]⟩
    | false =>
      refine ⟨_, _, _, execGet_of_data he, s.block.advanceGet_wf hw, ?_⟩
      rw [State.contents, s.block.contents_advanceGet hN he, queueStep]
  | putget d =>
    cases he : s.block.empty with
    | true =>
      have hf := Block.not_full_of_empty hN he
      have hnil : s.contents = [] := Block.empty_iff_contents.1 he
      refine ⟨_, _, _, execPutget_of_empty d hf he, s.block.store_wf hw d, ?_⟩
      rw [Block.contents_store _ hN hw hf, ← State.contents, hnil, queueStep, List.nil_append]
    | false =>
      have hfront : s.contents = s.block.front :: s.block.advanceGet.contents := s.block.contents_advanceGet hN he
      rw [hfront] at hroom ⊢
      cases hf : s.block.full with
      | true =>
        exact ⟨_, _, _, execPutget_of_full d hf he, s.block.advanceGet_wf hw, by
          rw [queueStep, if_neg (mt hroom.1 (by simp [hf]))]⟩
      | false =>
        have hboth := Block.contents_store_advanceGet hN hw hf he d
        rw [s.block.contents_advanceGet hN he, List.cons_append, List.cons.injEq] at hboth
        refine ⟨_, _, _, execPutget_of_both d hf he, Block.advanceGet_wf _ (s.block.store_wf hw d), ?_⟩
        rw [queueStep, if_pos (hroom.2 hf), hboth.2]

/-- Settles O33: the row of the table is the cycle's, and the status outputs are the number of bytes held. -/
theorem contentsFollowTheQueueTable : Obligations.ContentsFollowTheQueueTable := by
  intro i s hw
  obtain ⟨pok, got, B, hexec, -, hqueue⟩ := exec_queueStep i hw
  refine ⟨_, _, hexec, State.endCycle_cycleOf .., ?_⟩
  rw [hqueue, s.block.contents_length]
  exact ⟨rfl, rfl, State.outputs_usableData .., rfl, s.block.empty_iff_count, s.block.full_iff_count⟩

/-- Every command keeps the storage's form. -/
theorem exec_keeps_wf (i : Instr) (s t : State) (hw : s.wf = true) (h : exec i s = .next t) : t.wf = true := by
  obtain ⟨pok, got, B, hexec, hB, -⟩ := exec_queueStep i hw
  cases hexec.symm.trans h
  exact hB

/-- Settles O30: the step is the cycle of the word's command, which writes at PutI alone. -/
theorem everyStepKeepsTheStorageForm : Obligations.EveryStepKeepsTheStorageForm :=
  fun s t hw h => exec_keeps_wf (decodeWord s.portWord) s.takeWord t hw h

/-- An observer sees the command, the two results, the byte got and, of the start state, the number of bytes held
(44_put_get.md R86). -/
theorem State.observation_outputs (s : State) (i : Instr) (pok : Bool) (got : Option Byte) :
    CycleRecord.observation { cmd := i, out := s.outputs pok got } =
      { cmd := i, putOk := pok, getOk := got.isSome, data := got, empty := decide (s.contents.length = 0)
        full := decide (s.contents.length = s.capacity - 1), count := s.contents.length } := by
  have hempty : s.block.empty = decide (s.contents.length = 0) := by
    rw [Bool.eq_iff_iff, decide_eq_true_eq, List.length_eq_zero_iff]
    exact Block.empty_iff_contents
  have hfull : s.block.full = decide (s.contents.length = s.capacity - 1) := by
    rw [Bool.eq_iff_iff, decide_eq_true_eq]
    exact Block.full_iff_contents
  simp only [CycleRecord.observation, State.outputs_putOk, State.outputs_getOk, State.outputs_usableData,
    State.outputs_empty, State.outputs_full, State.outputs_count, hempty, hfull, ← Block.contents_length]

/-- Two blocks of one capacity with equal contents show the same in every cycle of a stream and keep equal contents. -/
theorem runsTo_of_same_contents (is : List Instr) {s u : State} (hs : s.wf = true) (hu : u.wf = true)
    (hcfg : s.cfg = u.cfg) (hcontents : s.contents = u.contents) :
    ∃ r t q v, RunsTo is s r t ∧ RunsTo is u q v ∧ t.contents = v.contents ∧
      r.map CycleRecord.observation = q.map CycleRecord.observation := by
  induction is generalizing s u with
  | nil => exact ⟨_, _, _, _, .nil s, .nil u, hcontents, rfl⟩
  | cons i is ih =>
    have hcap : s.capacity = u.capacity := congrArg Config.capacity hcfg
    obtain ⟨pok, got, B, hexec, hB, hqueue⟩ := exec_queueStep i hs
    obtain ⟨pok', got', B', hexec', hB', hqueue'⟩ := exec_queueStep i hu
    rw [hcap, hcontents, hqueue', QueueResult.mk.injEq] at hqueue
    obtain ⟨hafter, rfl, rfl⟩ := hqueue
    obtain ⟨r, t, q, v, hrun, hrun', hend, hshow⟩ :=
      ih (s := s.endCycle i pok' got' B) (u := u.endCycle i pok' got' B') hB hB' hcfg hafter.symm
    refine ⟨_, _, _, _, .cons hexec hrun, .cons hexec' hrun', hend, ?_⟩
    simp only [List.map_append, hshow, List.map_cons, List.map_nil, State.observation_outputs, hcontents, hcap]

/-- Settles O34: equal contents are kept by every cycle, and each cycle's observation is a function of them. -/
theorem sameContentsShowTheSame : Obligations.SameContentsShowTheSame := by
  intro is s u hs hu hcfg hcontents
  obtain ⟨r, t, q, v, hrun, hrun', hend, hshow⟩ := runsTo_of_same_contents is hs hu hcfg hcontents
  refine ⟨t, v, hrun.run, hrun'.run, hend, ?_, ?_⟩
  · rw [hrun.take_history, hrun'.take_history, hshow]
  · rw [hrun.take_history, hrun.length]

/-- The results that the agents may use are part of the observation. -/
theorem results_map_congr {r q : List CycleRecord}
    (h : r.map CycleRecord.observation = q.map CycleRecord.observation) :
    r.map CycleRecord.results = q.map CycleRecord.results := by
  have hresults : CycleRecord.results = (fun o => (o.putOk, o.getOk, o.data)) ∘ CycleRecord.observation := rfl
  rw [hresults, ← List.map_map, ← List.map_map, h]

/-- The results of a cycle on record are those of the cycle, whatever the block and the draw. -/
@[simp] theorem State.results_outputs (s : State) (i : Instr) (pok : Bool) (got : Option Byte) :
    CycleRecord.results { cmd := i, out := s.outputs pok got } = (pok, got.isSome, got) := by
  simp [CycleRecord.results]

/-- Until the first INIT only NOPs run, whose results do not depend on the block, and after it both are empty. -/
theorem runsTo_of_reset_before_use {is : List Instr} (hreset : resetBeforeUse is = true) {s u : State}
    (hs : s.wf = true) (hu : u.wf = true) (hcfg : s.cfg = u.cfg) :
    ∃ r t q v, RunsTo is s r t ∧ RunsTo is u q v ∧ r.map CycleRecord.results = q.map CycleRecord.results := by
  induction is generalizing s u with
  | nil => exact ⟨_, _, _, _, .nil s, .nil u, rfl⟩
  | cons i is ih =>
    cases i with
    | nop =>
      obtain ⟨r, t, q, v, hrun, hrun', hresults⟩ :=
        ih hreset (s := s.endCycle .nop false none s.block) (u := u.endCycle .nop false none u.block) hs hu hcfg
      exact ⟨_, _, _, _, .cons (execNop_eq s) hrun, .cons (execNop_eq u) hrun', by simp [hresults]⟩
    | init =>
      obtain ⟨r, t, q, v, hrun, hrun', -, hshow⟩ := runsTo_of_same_contents is
        (s := s.endCycle .init false none s.block.clear) (u := u.endCycle .init false none u.block.clear)
        (s.block.clear_wf hs) (u.block.clear_wf hu) hcfg
        (s.block.contents_clear.trans u.block.contents_clear.symm)
      exact ⟨_, _, _, _, .cons (execInit_eq s) hrun, .cons (execInit_eq u) hrun', by simp [results_map_congr hshow]⟩
    | get | put | putget => exact absurd hreset Bool.false_ne_true

/-- Settles O29: the two draws are two states in form of one capacity, with nothing on record before the run. -/
theorem powerUpDrawIsNotSeenAfterReset : Obligations.PowerUpDrawIsNotSeenAfterReset := by
  intro is cfg draw other hdraw hother hreset
  obtain ⟨r, t, q, v, hrun, hrun', hresults⟩ := runsTo_of_reset_before_use hreset
    (s := State.powerUp cfg draw) (u := State.powerUp cfg other) hdraw hother rfl
  have ht : t.history = r := hrun.history.trans (List.append_nil r)
  have hv : v.history = q := hrun'.history.trans (List.append_nil q)
  exact ⟨t, v, hrun.run, hrun'.run, by rw [ht, hv, hresults], by rw [ht, hrun.length]⟩

end Sys2Proof.Machine
end

section
/-!
The FIFO laws (44_put_get.md section 3): in every cycle the bytes accepted and got since the last INIT differ by what is
held, and the occupancy changes by the two results.
-/

namespace Sys2Proof.Machine

section records

variable (s : State) (i : Instr) (pok : Bool) (got : Option Byte) (h : List CycleRecord)

@[simp] theorem acceptedBytes_init_cons (o : Outputs) : acceptedBytes ({ cmd := .init, out := o } :: h) = [] := rfl

@[simp] theorem gotBytes_init_cons (o : Outputs) : gotBytes ({ cmd := .init, out := o } :: h) = [] := rfl

variable {i}

/-- A cycle outside INIT adds the byte of its successful put. -/
theorem acceptedBytes_cons (hi : i ≠ .init) :
    acceptedBytes ({ cmd := i, out := s.outputs pok got } :: h) =
      acceptedBytes h ++ (if pok then (putByte i).toList else []) := if_neg hi

/-- A cycle outside INIT adds the byte of its successful get. -/
theorem gotBytes_cons (hi : i ≠ .init) :
    gotBytes ({ cmd := i, out := s.outputs pok got } :: h) = gotBytes h ++ got.toList := by
  refine (if_neg hi).trans ?_
  cases got <;> rfl

end records

/-- The law at the end of a cycle, by the cycle's record and the block it ends in. -/
theorem fifoInv_endCycle {s : State} {i : Instr} {pok : Bool} {got : Option Byte} {B : Block s.cfg.logCap} :
    FifoInv (s.endCycle i pok got B) ↔
      acceptedBytes ({ cmd := i, out := s.outputs pok got } :: s.history) =
        gotBytes ({ cmd := i, out := s.outputs pok got } :: s.history) ++ B.contents := Iff.rfl

/-- INIT makes the law true of any block: nothing is on record since then and nothing is held. -/
theorem fifoInv_init (s : State) : FifoInv (s.endCycle .init false none s.block.clear) := by
  simp [fifoInv_endCycle, Block.contents_clear]

/-- Every command keeps the storage's form and the FIFO law: what comes out of the queue was in front of it, and what
goes in is behind it (44_put_get.md R88). -/
theorem exec_keeps_fifoInv (i : Instr) (s t : State) (inv : s.wf = true ∧ FifoInv s) (h : exec i s = .next t) :
    t.wf = true ∧ FifoInv t := by
  obtain ⟨hw, hfifo⟩ := inv
  refine ⟨exec_keeps_wf i s t hw h, ?_⟩
  by_cases hi : i = .init
  · subst hi
    cases (execInit_eq s).symm.trans h
    exact fifoInv_init s
  · obtain ⟨pok, got, B, hexec, put, get⟩ := exec_sides s hi
    cases hexec.symm.trans h
    rw [fifoInv_endCycle, acceptedBytes_cons s pok got _ hi, gotBytes_cons s pok got _ hi, hfifo, List.append_assoc,
      List.append_assoc, put.got_append_contents get s.cfg.logCap_pos hw]

/-- Settles O37: the step is the cycle of the word's command. -/
theorem everyStepKeepsTheFifoLaw : Obligations.EveryStepKeepsTheFifoLaw :=
  fun s t hw hfifo h => exec_keeps_fifoInv (decodeWord s.portWord) s.takeWord t ⟨hw, hfifo⟩ h

/-- Settles O36: INIT establishes the law and every later cycle keeps it. -/
theorem fifoOrderAfterReset : Obligations.FifoOrderAfterReset := by
  intro s is hw
  obtain ⟨r, t, hrun, -, hfifo⟩ := exists_runsTo_of_invariant exec_keeps_fifoInv is
    (s := s.endCycle .init false none s.block.clear) ⟨s.block.clear_wf hw, fifoInv_init s⟩
  exact ⟨t, (execAll_cons_next s (execInit_eq s) is).trans hrun.run, hfifo⟩

/-- The byte that a cycle gets is the first of those held when it starts. -/
theorem GetSide.got_prefix_contents {N : Nat} {S B : Block N} {i : Instr} {got : Option Byte}
    (get : GetSide S i got B) (hN : 1 ≤ N) : got.toList <+: S.contents := by
  cases get with
  | unchanged => exact List.nil_prefix
  | taken _ data => exact ⟨_, (S.contents_advanceGet hN data).symm⟩

/-- Settles O39: a cycle adds to the bytes got at most the first byte held at its start, which the law counts as
accepted by then. -/
theorem byteIsGotInALaterCycle : Obligations.ByteIsGotInALaterCycle := by
  intro s t hw hfifo h
  by_cases hi : decodeWord s.portWord = .init
  · rw [step, hi] at h
    cases (execInit_eq s.takeWord).symm.trans h
    exact List.nil_prefix
  · obtain ⟨pok, got, B, hexec, -, get⟩ := exec_sides s.takeWord hi
    cases hexec.symm.trans h
    rw [State.endCycle_history, gotBytes_cons _ _ _ _ hi, hfifo]
    exact (List.prefix_append_right_inj _).2 (get.got_prefix_contents s.cfg.logCap_pos)

section occupancy

variable {N : Nat} {S B : Block N} {i : Instr} {pok : Bool} {got : Option Byte}

/-- The occupancy law of one cycle, over every state: a successful put adds one and a successful get takes one
(44_put_get.md R87). -/
theorem PutSide.count_add (put : PutSide S i pok B) (get : GetSide S i got B) (hN : 1 ≤ N) :
    B.count.toNat + got.isSome.toNat = S.count.toNat + pok.toNat := by
  cases put with
  | unchanged _ putI mem =>
    cases get with
    | unchanged _ getI => simp [Block.eq_of_parts putI getI mem]
    | taken _ data getI =>
      rw [Block.eq_of_parts (T := S.advanceGet) putI getI mem]
      exact Block.advanceGet_count hN data
  | stored d _ room putI mem =>
    cases get with
    | unchanged _ getI =>
      rw [Block.eq_of_parts (T := S.store d) putI getI mem]
      exact Block.store_count hN room d
    | taken _ data getI =>
      rw [Block.eq_of_parts (T := (S.store d).advanceGet) putI getI mem]
      exact (Block.advanceGet_count hN (Block.store_empty hN room d)).trans (Block.store_count hN room d)

/-- While a byte is held for it, a get succeeds when it is requested (42_get.md R69). -/
theorem GetSide.isSome_eq_requestsGet (get : GetSide S i got B) (held : (requestsGet i).toNat ≤ S.count.toNat) :
    got.isSome = requestsGet i := by
  rw [get.isSome_eq]
  cases hasked : requestsGet i with
  | false => rfl
  | true =>
    have hdata : S.empty = false := by
      rw [← Bool.not_eq_true, Block.empty_iff_count]
      simp only [hasked, Bool.toNat_true] at held
      omega
    simp [hdata]

/-- While there is room for its byte, a put succeeds when it is requested (41_put.md R63). -/
theorem PutSide.putOk_eq_isSome (put : PutSide S i pok B)
    (room : S.count.toNat + (putByte i).isSome.toNat ≤ 2 ^ N - 1) : pok = (putByte i).isSome := by
  rw [put.putOk_eq]
  cases hasked : (putByte i).isSome with
  | false => rfl
  | true =>
    simp only [hasked, Bool.toNat_true] at room
    simp [Block.full_eq_false_of_count_lt room]

end occupancy

section counting

variable {α : Type} (p : α → Bool) (a : α) (l : List α)

theorem countP_cons_toNat : (a :: l).countP p = l.countP p + (p a).toNat := by
  cases h : p a <;> simp [h]

theorem countP_concat_toNat : (l ++ [a]).countP p = l.countP p + (p a).toNat := by
  cases h : p a <;> simp [h]

end counting

/-- The first command of a stream without INIT, and the rest. -/
theorem noInit_cons {i : Instr} {is : List Instr} (h : noInit (i :: is) = true) : i ≠ .init ∧ noInit is = true := by
  simpa [noInit] using h

/-- The occupancy law of a run without INIT, from any state (44_put_get.md R87). -/
theorem runsTo_count {is : List Instr} (his : noInit is = true) (s : State) :
    ∃ r t, RunsTo is s r t ∧
      t.count + r.countP (fun c => c.out.getOk) = s.count + r.countP (fun c => c.out.putOk) := by
  induction is generalizing s with
  | nil => exact ⟨_, _, .nil s, rfl⟩
  | cons i is ih =>
    obtain ⟨hi, his⟩ := noInit_cons his
    obtain ⟨pok, got, B, hexec, put, get⟩ := exec_sides s hi
    obtain ⟨r, t, hrun, hcount⟩ := ih his (s.endCycle i pok got B)
    refine ⟨_, _, .cons hexec hrun, ?_⟩
    have hfirst := put.count_add get s.cfg.logCap_pos
    rw [State.endCycle_count] at hcount
    simp only [countP_concat_toNat, State.outputs_getOk, State.outputs_putOk, State.count] at hcount ⊢
    omega

/-- Settles O35: INIT leaves nothing held, and the occupancy is an `N`-bit number. -/
theorem occupancyIsPutsMinusGets : Obligations.OccupancyIsPutsMinusGets := by
  intro s is hw his
  obtain ⟨r, t, hrun, hcount⟩ := runsTo_count his (s.endCycle .init false none s.block.clear)
  refine ⟨t, (execAll_cons_next s (execInit_eq s) is).trans hrun.run, ?_, Nat.le_sub_one_of_lt t.block.count.isLt⟩
  rw [hrun.take_history, hcount]
  simp

/-- A run without INIT whose gets are no more than the bytes held has no failed get. -/
theorem runsTo_gets_succeed {is : List Instr} (his : noInit is = true) {s : State}
    (hgets : is.countP requestsGet ≤ s.block.count.toNat) :
    ∃ r t, RunsTo is s r t ∧ ∀ c ∈ r, requestsGet c.cmd = true → c.out.getOk = true := by
  induction is generalizing s with
  | nil => exact ⟨_, _, .nil s, nofun⟩
  | cons i is ih =>
    obtain ⟨hi, his⟩ := noInit_cons his
    obtain ⟨pok, got, B, hexec, put, get⟩ := exec_sides s hi
    rw [countP_cons_toNat] at hgets
    have hgot := get.isSome_eq_requestsGet (by omega)
    have hcount := put.count_add get s.cfg.logCap_pos
    have hrest : is.countP requestsGet ≤ B.count.toNat := by
      rw [hgot] at hcount
      omega
    obtain ⟨r, t, hrun, hok⟩ := ih his (s := s.endCycle i pok got B) hrest
    refine ⟨_, _, .cons hexec hrun, List.forall_mem_append.2 ⟨hok, List.forall_mem_singleton.2 fun hasked => ?_⟩⟩
    rwa [State.outputs_getOk, hgot]

/-- A run without INIT whose puts are no more than the free slots has no failed put. -/
theorem runsTo_puts_succeed {is : List Instr} (his : noInit is = true) {s : State}
    (hputs : s.block.count.toNat + is.countP (fun i => (putByte i).isSome) ≤ 2 ^ s.cfg.logCap - 1) :
    ∃ r t, RunsTo is s r t ∧ ∀ c ∈ r, (putByte c.cmd).isSome = true → c.out.putOk = true := by
  induction is generalizing s with
  | nil => exact ⟨_, _, .nil s, nofun⟩
  | cons i is ih =>
    obtain ⟨hi, his⟩ := noInit_cons his
    obtain ⟨pok, got, B, hexec, put, get⟩ := exec_sides s hi
    rw [countP_cons_toNat] at hputs
    have hpok := put.putOk_eq_isSome (by omega)
    have hcount := put.count_add get s.cfg.logCap_pos
    have hrest : B.count.toNat + is.countP (fun i => (putByte i).isSome) ≤ 2 ^ s.cfg.logCap - 1 := by
      rw [hpok] at hcount
      omega
    obtain ⟨r, t, hrun, hok⟩ := ih his (s := s.endCycle i pok got B) hrest
    refine ⟨_, _, .cons hexec hrun, List.forall_mem_append.2 ⟨hok, List.forall_mem_singleton.2 fun hasked => ?_⟩⟩
    rwa [State.outputs_putOk, hpok]

/-- Settles O38: nothing is on record, and nothing is held, as the indices are those that INIT leaves. -/
theorem fifoLawHoldsAtReset : Obligations.FifoLawHoldsAtReset := by
  intro cfg
  have hempty : (State.resetOf cfg).block.contents = [] := (State.resetOf cfg).block.contents_clear
  rw [FifoInv, State.resetOf_history, hempty]
  rfl

/-- Settles O42: each get finds a byte, since the gets still to come are no more than the bytes held, and a cycle takes a
byte only for a get. -/
theorem getsWithinTheOccupancySucceed : Obligations.GetsWithinTheOccupancySucceed := by
  intro is s _ his hgets
  obtain ⟨r, t, hrun, hok⟩ := runsTo_gets_succeed his hgets
  exact ⟨t, hrun.run, by rwa [hrun.take_history]⟩

/-- Settles O43: likewise for the puts and the free space. -/
theorem putsWithinTheFreeSpaceSucceed : Obligations.PutsWithinTheFreeSpaceSucceed := by
  intro is s _ his hputs
  obtain ⟨r, t, hrun, hok⟩ := runsTo_puts_succeed his (s := s) (by
    have hlt := s.block.count.isLt
    rw [s.capacity_eq] at hputs
    simp only [State.count] at hputs
    omega)
  exact ⟨t, hrun.run, by rwa [hrun.take_history]⟩

/-- Settles O44: a side that is not asked has no result, so the occupancy law leaves the other side's change only. -/
theorem theOtherSideOnlyAddsMargin : Obligations.TheOtherSideOnlyAddsMargin := by
  intro i s hi
  obtain ⟨pok, got, B, hexec, put, get⟩ := exec_sides s hi
  have hcount := put.count_add get s.cfg.logCap_pos
  refine ⟨_, hexec, fun hnoGet => ?_, fun hnoPut => ?_⟩
  · rw [get.isSome_eq, hnoGet, Bool.false_and, Bool.toNat_false] at hcount
    rw [State.endCycle_count]
    exact le_of_le_of_eq (Nat.le_add_right _ _) hcount.symm
  · rw [put.putOk_eq, hnoPut, Option.isSome_none, Bool.false_and, Bool.toNat_false] at hcount
    rw [State.endCycle_freeSpace, Block.freeSpace, Block.freeSpace]
    omega

end Sys2Proof.Machine
end

section
/-!
Streams of one command (44_put_get.md R80, R89, 20_memory.md R43): gets that drain the block, PUTGETs that shift it, and
retries that find it full or empty for ever.
-/

namespace Sys2Proof.Machine

/-- As many gets as bytes are held get them all, in order. -/
theorem runsTo_drain (n : Nat) {s : State} (hn : s.contents.length = n) :
    ∃ r t, RunsTo (List.replicate n .get) s r t ∧ usableBytes r = s.contents ∧ t.contents = [] := by
  induction n generalizing s with
  | zero =>
    have hnil := List.length_eq_zero_iff.1 hn
    exact ⟨_, _, .nil s, hnil.symm, hnil⟩
  | succ n ih =>
    have hdata : s.block.empty = false := Block.empty_eq_false_iff_contents.2 (List.ne_nil_of_length_eq_add_one hn)
    have hfront : s.contents = s.block.front :: s.block.advanceGet.contents :=
      s.block.contents_advanceGet s.cfg.logCap_pos hdata
    rw [hfront, List.length_cons, Nat.succ_inj] at hn
    obtain ⟨r, t, hrun, hgot, hend⟩ := ih (s := s.endCycle .get false (some s.block.front) s.block.advanceGet) hn
    refine ⟨_, _, .cons (execGet_of_data hdata) hrun, ?_, hend⟩
    rw [usableBytes_append_first, State.outputs_usableData, hgot, hfront]
    rfl

/-- Settles O40: the put stores the byte behind the others, and the gets drain the block. -/
theorem byteIsGotAfterTheBytesBeforeIt : Obligations.ByteIsGotAfterTheBytesBeforeIt := by
  intro s d hw hroom
  have hheld : (s.block.store d).contents = s.contents ++ [d] := s.block.contents_store s.cfg.logCap_pos hw hroom d
  have hlen : (s.block.store d).contents.length = s.count + 1 := by
    rw [hheld, List.length_append, Block.contents_length, List.length_singleton]
  obtain ⟨r, t, hrun, hgot, hend⟩ :=
    runsTo_drain (s.count + 1) (s := s.endCycle (.put d) true none (s.block.store d)) hlen
  have hall := RunsTo.cons (execPut_of_room d hroom) hrun
  refine ⟨t, hall.run, ?_, hend, ?_⟩
  · rw [hrun.take_history_of_length (List.length_replicate ..), hgot]
    exact hheld
  · rw [hall.cycle, List.length_cons, List.length_replicate, Nat.add_assoc s.cycle]

/-- A stream of PUTGETs on a block that holds a byte and has room shifts the stream through it, and each cycle leaves as
many bytes held as before. -/
theorem runsTo_putgets (ds : List Byte) {s : State} (hw : s.wf = true) (hdata : 1 ≤ s.block.count.toNat)
    (hroom : s.block.count.toNat < 2 ^ s.cfg.logCap - 1) :
    ∃ r t, RunsTo (ds.map .putget) s r t ∧ usableBytes r = (s.contents ++ ds).take ds.length ∧
      t.contents = (s.contents ++ ds).drop ds.length := by
  induction ds generalizing s with
  | nil => exact ⟨_, _, .nil s, rfl, (List.append_nil _).symm⟩
  | cons d ds ih =>
    have hN := s.cfg.logCap_pos
    have hf := Block.full_eq_false_of_count_lt hroom
    have he : s.block.empty = false := by
      rw [← Bool.not_eq_true, Block.empty_iff_count]
      omega
    have hshift := Block.contents_store_advanceGet hN hw hf he d
    have hkept : (s.block.store d).advanceGet.count.toNat = s.block.count.toNat := by
      simpa using congrArg List.length hshift
    obtain ⟨r, t, hrun, hgot, hend⟩ :=
      ih (s := s.endCycle (.putget d) true (some s.block.front) (s.block.store d).advanceGet)
        (Block.advanceGet_wf _ (s.block.store_wf hw d)) (hkept ▸ hdata) (hkept ▸ hroom)
    -- The stream and what is held before it, seen from the next cycle on.
    have hall : s.contents ++ d :: ds = s.block.front :: ((s.block.store d).advanceGet.contents ++ ds) := by
      rw [← List.cons_append, hshift, List.append_assoc, List.singleton_append]
    refine ⟨_, _, .cons (execPutget_of_both d hf he) hrun, ?_, ?_⟩
    · rw [usableBytes_append_first, State.outputs_usableData, hgot, hall]
      rfl
    · rw [hend, hall]
      rfl

/-- Settles O45: what comes out is the front of the old contents and the stream behind them, and the rest is held. -/
theorem putgetStreamDelaysByTheCount : Obligations.PutgetStreamDelaysByTheCount := by
  intro ds s hw hdata hroom
  have h2 := Block.two_le_pow s.cfg.logCap_pos
  rw [s.capacity_eq] at hroom
  obtain ⟨r, t, hrun, hgot, hend⟩ := runsTo_putgets ds hw hdata (Nat.lt_of_le_of_lt hroom (by omega))
  refine ⟨t, hrun.run, ?_, by rwa [hrun.take_history_of_length (List.length_map ..)], hend⟩
  simpa using congrArg List.length hend

/-- A command that leaves the block as it is, wherever `P` holds, does so for ever and with both results 0. -/
theorem runsTo_stuck {P : State → Prop} {i : Instr}
    (stuck : ∀ u, P u → exec i u = .next (u.endCycle i false none u.block) ∧ P (u.endCycle i false none u.block))
    (n : Nat) {s : State} (h : P s) :
    ∃ r t, RunsTo (List.replicate n i) s r t ∧ SameBlock s t ∧ P t ∧
      (∀ c ∈ r, c.out.putOk = false) ∧ ∀ c ∈ r, c.out.getOk = false := by
  induction n generalizing s with
  | zero => exact ⟨_, _, .nil s, ⟨rfl, rfl, rfl⟩, h, nofun, nofun⟩
  | succ n ih =>
    obtain ⟨hexec, hnext⟩ := stuck s h
    obtain ⟨r, t, hrun, ⟨hputI, hgetI, hmem⟩, ht, hput, hget⟩ := ih hnext
    exact ⟨_, _, .cons hexec hrun, ⟨hputI, hgetI, hmem⟩, ht,
      List.forall_mem_append.2 ⟨hput, List.forall_mem_singleton.2 rfl⟩,
      List.forall_mem_append.2 ⟨hget, List.forall_mem_singleton.2 rfl⟩⟩

/-- Settles O46: a put on a full block and a get on an empty one leave the block as it is. -/
theorem retriesAloneFailForever : Obligations.RetriesAloneFailForever := by
  intro s d n
  refine ⟨fun hfull => ?_, fun hempty => ?_⟩
  · obtain ⟨r, t, hrun, hsame, ht, hput, -⟩ := runsTo_stuck (P := fun u => u.full = true) (i := .put d)
      (fun u hu => ⟨execPut_of_full d hu, hu⟩) n hfull
    refine ⟨t, hrun.run, hsame, ht, ?_⟩
    rw [hrun.take_history_of_length (List.length_replicate ..)]
    exact ⟨hrun.length.trans (List.length_replicate ..), hput⟩
  · obtain ⟨r, t, hrun, hsame, ht, -, hget⟩ := runsTo_stuck (P := fun u => u.empty = true) (i := .get)
      (fun u hu => ⟨execGet_of_empty hu, hu⟩) n hempty
    refine ⟨t, hrun.run, hsame, ht, ?_⟩
    rw [hrun.take_history_of_length (List.length_replicate ..)]
    exact ⟨hrun.length.trans (List.length_replicate ..), hget⟩

end Sys2Proof.Machine
end

section
/-!
PUTGET and the status outputs as numbers (44_put_get.md R80, 43_size_flags.md R73, R78): the three ranges of the
occupancy decide both flags, and with them both results of any cycle.
-/

namespace Sys2Proof.Machine

section status

variable {s : State}

theorem State.empty_iff_count : s.empty = true ↔ s.count = 0 := s.block.empty_iff_count

theorem State.full_iff_count : s.full = true ↔ s.count = s.capacity - 1 := s.block.full_iff_count

theorem State.two_le_capacity (s : State) : 2 ≤ s.capacity := Block.two_le_pow s.cfg.logCap_pos

/-- The first row of the table: nothing is held (43_size_flags.md R78). -/
theorem State.flags_of_count_zero (h : s.count = 0) : s.empty = true ∧ s.full = false :=
  have he := State.empty_iff_count.2 h
  ⟨he, Block.not_full_of_empty s.cfg.logCap_pos he⟩

/-- The middle row: something is held and there is room. -/
theorem State.flags_of_count_between (h1 : 1 ≤ s.count) (h2 : s.count ≤ s.capacity - 2) :
    s.empty = false ∧ s.full = false := by
  have hcap := s.two_le_capacity
  rw [← Bool.not_eq_true, ← Bool.not_eq_true, State.empty_iff_count, State.full_iff_count]
  omega

/-- The last row: `C - 1` bytes are held. -/
theorem State.flags_of_count_max (h : s.count = s.capacity - 1) : s.empty = false ∧ s.full = true := by
  have hcap := s.two_le_capacity
  rw [← Bool.not_eq_true, State.empty_iff_count, State.full_iff_count]
  omega

/-- With one usable slot a block is empty or full (43_size_flags.md R78). -/
theorem State.full_eq_not_empty_of_one (h : s.cfg.logCap = 1) : s.full = !s.empty := by
  have hlt : s.count < s.capacity := s.block.count.isLt
  have hcap : s.capacity = 2 := by rw [s.capacity_eq, h, pow_one]
  rw [Bool.eq_iff_iff, Bool.not_eq_true', ← Bool.not_eq_true, State.empty_iff_count, State.full_iff_count]
  omega

end status

section sides

variable {N : Nat} {S B : Block N} {i : Instr} {pok : Bool} {got : Option Byte}

/-- PutI after a cycle, as a number (41_put.md R65). -/
theorem PutSide.putI_toNat (put : PutSide S i pok B) :
    B.putI.toNat = if pok then (S.putI.toNat + 1) % 2 ^ N else S.putI.toNat := by
  cases put with
  | unchanged _ putI => rw [putI]; rfl
  | stored _ _ _ putI => rw [putI]; exact Block.next_toNat _

/-- GetI after a cycle, as a number (42_get.md R71). -/
theorem GetSide.getI_toNat (get : GetSide S i got B) :
    B.getI.toNat = if got.isSome then (S.getI.toNat + 1) % 2 ^ N else S.getI.toNat := by
  cases get with
  | unchanged _ getI => rw [getI]; rfl
  | taken _ _ getI => rw [getI]; exact Block.next_toNat _

/-- The storage after a cycle: the byte of a successful put at the put index, every other slot as before
(41_put.md R64). -/
theorem PutSide.read_mem (put : PutSide S i pok B) (hw : S.wf = true) {d : Byte} (byte : putByte i = some d) (a : Nat) :
    B.mem.read a = if pok = true ∧ a = S.putI.toNat then d else S.mem.read a := by
  cases put with
  | unchanged _ _ mem => simp [mem]
  | stored d' byte' _ _ mem =>
    obtain rfl : d = d' := Option.some.inj (byte.symm.trans byte')
    have hread := S.read_store hw d a
    simpa [mem] using hread

/-- A get that is asked while a byte is held shows the front byte (42_get.md R70). -/
theorem GetSide.got_eq_front (get : GetSide S i got B) (asked : requestsGet i = true) (data : S.empty = false) :
    got = some S.front := by
  cases get with
  | unchanged why => simp [asked, data] at why
  | taken => rfl

end sides

/-- Settles O7: both sides are judged on the start state's flags, which the three ranges of the count decide. -/
theorem putgetJudgesBothOnTheStartState : Obligations.PutgetJudgesBothOnTheStartState := by
  refine ⟨fun d => decodeWord_encodeWord (.putget d), fun s d hw => ?_⟩
  have hN := s.cfg.logCap_pos
  obtain ⟨pok, got, B, hexec, put, get⟩ := exec_sides s (i := .putget d) nofun
  have hgot : got.isSome = !s.empty := get.isSome_eq
  obtain rfl : pok = !s.full := put.putOk_eq
  have hputI : B.putI.toNat = if s.full then s.putI else (s.putI + 1) % s.capacity := by
    rw [put.putI_toNat]
    cases s.full <;> rfl
  have hgetI : B.getI.toNat = if s.empty then s.getI else (s.getI + 1) % s.capacity := by
    rw [get.getI_toNat, hgot]
    cases s.empty <;> rfl
  have hcount : B.count.toNat + (!s.empty).toNat = s.count + (!s.full).toNat := hgot ▸ put.count_add get hN
  refine ⟨_, _, hexec, State.endCycle_cycleOf .., rfl, hgot, ?oneSucceeds, hputI, hgetI,
    fun hdata => ?data, fun hroom => ?stored, fun a ha => ?others, fun hzero => ?countZero,
    fun hlow hhigh => ?countBetween, fun hmax => ?countMax⟩
  case oneSucceeds =>
    rw [State.outputs_putOk, State.outputs_getOk, hgot]
    cases he : s.empty with
    | true => exact .inl (by rw [State.full, Block.not_full_of_empty hN he]; rfl)
    | false => exact .inr rfl
  case data => rw [get.got_eq_front rfl hdata]; rfl
  case stored => rw [State.endCycle_mem, put.read_mem hw rfl, if_pos ⟨by simpa using hroom, rfl⟩]
  case others => rw [State.endCycle_mem, put.read_mem hw rfl, if_neg (by simpa [imp_iff_or_not, or_comm] using ha)]
  case countZero =>
    obtain ⟨he, hf⟩ := State.flags_of_count_zero hzero
    rw [he, hf, hzero] at hcount
    exact ⟨by rw [State.outputs_putOk, hf]; rfl, by rw [State.outputs_getOk, hgot, he]; rfl, hcount⟩
  case countBetween =>
    obtain ⟨he, hf⟩ := State.flags_of_count_between hlow hhigh
    rw [he, hf] at hcount
    exact ⟨by rw [State.outputs_putOk, hf]; rfl, by rw [State.outputs_getOk, hgot, he]; rfl, Nat.succ_inj.1 hcount⟩
  case countMax =>
    obtain ⟨he, hf⟩ := State.flags_of_count_max hmax
    rw [he, hf, hmax] at hcount
    exact ⟨by rw [State.outputs_putOk, hf]; rfl, by rw [State.outputs_getOk, hgot, he]; rfl,
      show B.count.toNat = s.capacity - 1 - 1 from Nat.eq_sub_of_add_eq hcount⟩

/-- Settles O21: the rows of the table give both flags, and a put alone and a get alone succeed by one flag each. -/
theorem statusTableHoldsForEveryCapacity : Obligations.StatusTableHoldsForEveryCapacity := by
  intro s d
  obtain ⟨pokp, gotp, Bp, hput, hpok, -⟩ := exec_results (.put d) s
  obtain ⟨pokg, gotg, Bg, hget, -, hgot⟩ := exec_results .get s
  refine ⟨_, _, _, _, hput, State.endCycle_cycleOf .., hget, State.endCycle_cycleOf .., fun hzero => ?_,
    fun hlow hhigh => ?_, fun hmax => ?_, fun ⟨he, hf⟩ => ?_, fun hone => ?_, rfl⟩
  · obtain ⟨he, hf⟩ := State.flags_of_count_zero hzero
    exact ⟨he, hf, hpok.trans (by rw [hf]; rfl), hgot.trans (by rw [he]; rfl)⟩
  · obtain ⟨he, hf⟩ := State.flags_of_count_between hlow hhigh
    exact ⟨he, hf, hpok.trans (by rw [hf]; rfl), hgot.trans (by rw [he]; rfl)⟩
  · obtain ⟨he, hf⟩ := State.flags_of_count_max hmax
    exact ⟨he, hf, hpok.trans (by rw [hf]; rfl), hgot.trans (by rw [he]; rfl)⟩
  · exact absurd (hf.symm.trans (Block.not_full_of_empty s.cfg.logCap_pos he)) (by decide)
  · exact State.full_eq_not_empty_of_one hone

/-- Blocks with equal index numbers have equal status outputs (43_size_flags.md R73). -/
theorem Block.status_congr {N : Nat} {S T : Block N} (putI : S.putI.toNat = T.putI.toNat)
    (getI : S.getI.toNat = T.getI.toNat) : S.count = T.count ∧ S.empty = T.empty ∧ S.full = T.full := by
  obtain ⟨hputI, hgetI⟩ := And.intro (BitVec.eq_of_toNat_eq putI) (BitVec.eq_of_toNat_eq getI)
  simp only [Block.count, Block.empty, Block.full, hputI, hgetI, and_self]

/-- Settles O22: each cycle shows the status outputs of its start state. -/
theorem statusOutputsIgnoreCommandAndStorage : Obligations.StatusOutputsIgnoreCommandAndStorage := by
  intro s u i j hcfg hputI hgetI
  obtain ⟨pok, got, B, hexec, -⟩ := exec_shape s i
  obtain ⟨pok', got', B', hexec', -⟩ := exec_shape u j
  refine ⟨_, _, _, _, hexec, State.endCycle_cycleOf .., hexec', State.endCycle_cycleOf .., ?_⟩
  obtain ⟨cfg, block⟩ := s
  obtain ⟨cfg', block'⟩ := u
  obtain rfl : cfg = cfg' := hcfg
  obtain ⟨hcount, hempty, hfull⟩ := Block.status_congr hputI hgetI
  exact ⟨congrArg BitVec.toNat hcount, hempty, hfull⟩

end Sys2Proof.Machine
end

section
/-!
The other two presentations of the status outputs, wide counters and the words `STAT` and `RES` (43_size_flags.md R79,
30_encoding.md R49); the live slots as a set (10_state.md R25); reset, power-up and the capacity parameter
(10_state.md section 5, 00_scope.md R6).
-/

namespace Sys2Proof.Machine

namespace Counters

variable {N W : Nat}

/-- Masking a wide counter keeps its lowest `N` bits. -/
theorem masked_toNat (hle : N ≤ W) (c : BitVec W) : (masked N c).toNat = (c.setWidth N).toNat := by
  have hmask : 2 ^ N - 1 < 2 ^ W :=
    Nat.lt_of_lt_of_le (Nat.sub_lt (Nat.two_pow_pos N) Nat.one_pos) (Nat.pow_le_pow_right Nat.two_pos hle)
  rw [masked, BitVec.toNat_and, BitVec.toNat_ofNat, Nat.mod_eq_of_lt hmask, Nat.and_two_pow_sub_one_eq_mod,
    BitVec.toNat_setWidth]

/-- Masked counters are equal when the registers they stand for are. -/
theorem masked_beq (hle : N ≤ W) (a b : BitVec W) : (masked N a == masked N b) = (a.setWidth N == b.setWidth N) := by
  rw [Bool.eq_iff_iff, beq_iff_eq, beq_iff_eq, BitVec.toNat_eq, BitVec.toNat_eq, masked_toNat hle, masked_toNat hle]

end Counters

/-- Settles O23: dropping the upper bits of a counter commutes with addition and subtraction. -/
theorem maskedCountersGiveTheSameOutputs : Obligations.MaskedCountersGiveTheSameOutputs := by
  intro N W k m hN hle
  refine ⟨?count, Counters.masked_beq hle _ _, ?full⟩
  case count =>
    rw [Counters.count, Counters.masked_toNat hle, Block.count, Counters.toBlock, BitVec.sub_eq_add_neg,
      BitVec.setWidth_add _ _ hle, BitVec.setWidth_neg_of_le hle, ← BitVec.sub_eq_add_neg]
  case full =>
    rw [Counters.full, Counters.masked_beq hle, BitVec.setWidth_add _ _ hle, BitVec.setWidth_ofNat_of_le hle]
    rfl

section words

variable {N : Nat} (S : Block N)

/-- `STAT` has `full` in its uppermost bit (30_encoding.md R49). -/
theorem Block.statWord_full : S.statWord.getLsbD (N + 1) = S.full := by
  rw [Block.statWord, BitVec.getLsbD_cast, BitVec.getLsbD_append, BitVec.getLsbD_append]
  simp

/-- `STAT` has `empty` below `full`. -/
theorem Block.statWord_empty : S.statWord.getLsbD N = S.empty := by
  rw [Block.statWord, BitVec.getLsbD_cast, BitVec.getLsbD_append, BitVec.getLsbD_append]
  simp

/-- The lowest `N` bits of `STAT` are `count`. -/
theorem Block.statWord_count : S.statWord.toNat % 2 ^ N = S.count.toNat := by
  rw [← BitVec.toNat_setWidth, Block.statWord, BitVec.setWidth_cast, BitVec.setWidth_append_eq_right]

theorem Outputs.resWord_putOk (o : Outputs) : o.resWord.getLsbD 9 = o.putOk := by
  rw [Outputs.resWord, BitVec.getLsbD_append, BitVec.getLsbD_append]
  simp

theorem Outputs.resWord_getOk (o : Outputs) : o.resWord.getLsbD 8 = o.getOk := by
  rw [Outputs.resWord, BitVec.getLsbD_append, BitVec.getLsbD_append]
  simp

end words

/-- Settles O24: each field is one operand of a concatenation. -/
theorem outputWordsHaveTheirFields : Obligations.OutputWordsHaveTheirFields :=
  ⟨fun s => ⟨s.block.statWord_full, s.block.statWord_empty, s.block.statWord_count⟩,
    fun o => ⟨o.resWord_putOk, o.resWord_getOk, BitVec.extractLsb'_append_eq_right⟩⟩

section liveSlots

variable {N : Nat} (S : Block N)

/-- The slots of the first `C` places after the oldest byte are distinct. -/
theorem Block.liveSlots_nodup : S.liveSlots.Nodup := by
  refine List.Nodup.map_on (fun j hj k hk heq => ?_) List.nodup_range
  have hlt := S.count.isLt
  rw [List.mem_range] at hj hk
  have hslotj := S.slot_cases (k := j) (by omega)
  have hslotk := S.slot_cases (k := k) (by omega)
  omega

theorem Block.lt_of_mem_liveSlots {a : Nat} (h : a ∈ S.liveSlots) : a < 2 ^ N := by
  obtain ⟨k, -, rfl⟩ := List.mem_map.1 h
  exact Nat.mod_lt _ (Nat.two_pow_pos N)

/-- When the block is full every slot but the put slot is live: it stands fewer than `C - 1` places behind the oldest
byte. -/
theorem Block.mem_liveSlots_of_full (h : S.count.toNat = 2 ^ N - 1) {a : Nat} (ha : a < 2 ^ N)
    (hne : a ≠ S.putI.toNat) : a ∈ S.liveSlots := by
  have hp := S.putI.isLt
  have hg := S.getI.isLt
  have hc := S.count_toNat_cases
  rcases Nat.lt_or_ge a S.getI.toNat with hlow | hhigh
  · refine List.mem_map.2 ⟨a + 2 ^ N - S.getI.toNat, List.mem_range.2 (by omega), ?_⟩
    rw [show S.getI.toNat + (a + 2 ^ N - S.getI.toNat) = a + 2 ^ N by omega, Nat.add_mod_right, Nat.mod_eq_of_lt ha]
  · refine List.mem_map.2 ⟨a - S.getI.toNat, List.mem_range.2 (by omega), ?_⟩
    rw [Nat.add_sub_cancel' hhigh, Nat.mod_eq_of_lt ha]

end liveSlots

/-- Settles O25: the live slots are the `count` places from GetI on, and PutI is the place behind them. -/
theorem liveSlotsAreDistinctAndSpareThePutSlot : Obligations.LiveSlotsAreDistinctAndSpareThePutSlot := by
  intro s
  exact ⟨Nat.le_sub_one_of_lt s.block.count.isLt, s.block.liveSlots_length, s.block.liveSlots_nodup,
    fun _ => s.block.lt_of_mem_liveSlots, s.block.putI_notMem_liveSlots,
    fun hfull _ => s.block.mem_liveSlots_of_full hfull⟩

/-- Settles O26: the block right after reset is, by definition, what INIT makes of itself. -/
theorem resetStateIsEmpty : Obligations.ResetStateIsEmpty := by
  refine ⟨rfl, fun cfg => ?_⟩
  have hempty : (State.resetOf cfg).empty = true := (State.resetOf cfg).block.clear_empty
  have hcount := State.empty_iff_count.1 hempty
  exact ⟨(State.resetOf cfg).block.clear_putI_toNat, (State.resetOf cfg).block.clear_getI_toNat,
    hempty, (State.flags_of_count_zero hcount).2, hcount, Block.empty_iff_contents.1 hempty⟩

/-- Settles O28: every draw is a state, whose cycle shows its own status, and INIT clears it. -/
theorem everyPowerUpDrawRunsAndResets : Obligations.EveryPowerUpDrawRunsAndResets := by
  intro cfg draw i
  obtain ⟨pok, got, B, hexec, -⟩ := exec_shape (State.powerUp cfg draw) i
  exact ⟨⟨_, _, hexec, State.endCycle_cycleOf .., rfl, rfl, rfl⟩, _, execInit_eq _, rfl, draw.clear_putI_toNat,
    draw.clear_getI_toNat, rfl, draw.contents_clear⟩

/-- Settles O31: the storage right after reset lists nothing. -/
theorem resetStorageHasTheForm : Obligations.ResetStorageHasTheForm := fun _ => rfl

/-- Settles O59: masking by `C - 1` is taking the remainder by `2^N`, and `2^N` is at least 2. -/
theorem onlyZeroCapacityIsRefused : Obligations.OnlyZeroCapacityIsRefused := by
  refine ⟨rfl, fun n hn => ⟨⟨n, hn⟩, dif_pos hn, rfl, rfl, Nat.le_sub_one_of_lt (Block.two_le_pow hn), fun a => ?_⟩⟩
  exact (Nat.and_two_pow_sub_one_eq_mod a n).symm

end Sys2Proof.Machine
end

section
/-!
Words as bytes (the model's layout, assumption 6), the words of the spec, and what a step does with the word on the
ports (30_encoding.md R46, R50, R51; 60_exceptions.md R97).
-/

namespace Sys2Proof

/-- The lower eight bits of a word and its upper three, put together again, are the word. -/
theorem append_extractLsb'_halves (w : CmdWord) :
    ((w.extractLsb' 8 3).setWidth 8).extractLsb' 0 3 ++ w.extractLsb' 0 8 = w := by
  rw [← BitVec.setWidth_eq_extractLsb' (by decide), BitVec.setWidth_setWidth_of_le _ (by decide), BitVec.setWidth_eq,
    BitVec.extractLsb'_append_extractLsb']

/-- The two bytes of any word decode to its command, whatever follows them. -/
theorem decodeBytes_halves (w : CmdWord) (rest : List Byte) :
    decodeBytes (w.extractLsb' 0 8 :: (w.extractLsb' 8 3).setWidth 8 :: rest) = .ok (decodeWord w, rest) := by
  have hlow : ((w.extractLsb' 8 3).setWidth 8).toNat < 8 := by
    rw [BitVec.toNat_setWidth_of_le (by decide)]
    exact (w.extractLsb' 8 3).isLt
  rw [decodeBytes, if_pos hlow, append_extractLsb'_halves]

/-- A word given as a number of 16 bits decodes to its command. -/
theorem decodeTableWord_toNat (w : CmdWord) : decodeTableWord 16 w.toNat = some (decodeWord w) := by
  have hlt := w.isLt
  have hword : tableWord 16 w.toNat = w.toNat := Nat.mod_eq_of_lt (by omega)
  have hlo : BitVec.ofNat 8 w.toNat = w.extractLsb' 0 8 := by
    rw [BitVec.ofNat_toNat, BitVec.setWidth_eq_extractLsb' (by decide)]
  have hhi : BitVec.ofNat 8 (w.toNat / 256) = (w.extractLsb' 8 3).setWidth 8 := by
    apply BitVec.eq_of_toNat_eq
    rw [BitVec.toNat_ofNat, BitVec.toNat_setWidth, BitVec.extractLsb'_toNat, Nat.shiftRight_eq_div_pow]
    omega
  rw [decodeTableWord, hword, if_pos (by omega), hlo, hhi, decodeBytes_halves]

/-- Settles O52: the encoder's word decodes to its command, and the bytes and the number are that word's. -/
theorem decodeReversesEncode : Obligations.DecodeReversesEncode := by
  intro i rest _
  have hdecode := decodeWord_encodeWord i
  refine ⟨hdecode, ?_, ?_⟩
  · rw [encodeBytes, List.cons_append, List.cons_append, List.nil_append, decodeBytes_halves, hdecode]
  · rw [decodeTableWord_toNat, hdecode]

/-- Settles O57: each word is decoded by its upper three bits. -/
theorem wordsOfTheSpecDecode : Obligations.WordsOfTheSpecDecode := by
  unfold Obligations.WordsOfTheSpecDecode
  decide

/-- Settles O56: the word of the merged requests has `rst`, the two requests and the byte in its ports. -/
theorem agentsRequestsNameTheCommand : Obligations.AgentsRequestsNameTheCommand := by
  intro rst get put
  match rst, put, get with
  | true, _, _ => exact decodeWord_toWord_init ..
  | false, none, false => exact decodeWord_toWord_nop ..
  | false, none, true => exact decodeWord_toWord_get ..
  | false, some d, false => exact decodeWord_toWord_put ..
  | false, some d, true => exact decodeWord_toWord_putget ..

end Sys2Proof

namespace Sys2Proof.Machine

/-- Settles O19: the first waiting word is on the ports and taken off the list; idle ports are the word of NOP, and there
is nothing to take off. -/
theorem stepRunsTheWordOnThePorts : Obligations.StepRunsTheWordOnThePorts := by
  refine ⟨fun s w rest hwait => ?_, fun s hidle => ?_⟩
  · rw [step, State.portWord, State.takeWord, hwait]
    rfl
  · obtain ⟨cfg, block, commands, cycle, draws, history⟩ := s
    obtain rfl : commands = [] := hidle
    exact congrArg (exec · _) (decodeWord_encodeWord .nop)

end Sys2Proof.Machine
end

section
/-!
Failures and the three agents (60_exceptions.md R90, R94, R99; 30_encoding.md R55; 70_reset_and_hazards.md R114).
-/

namespace Sys2Proof.Machine

section failures

variable {N : Nat} (S : Block N) (p : Inputs)

/-- The producer's port fails at most once in a cycle (60_exceptions.md R94). -/
theorem failures_countP_isPuts_le : (failures S p).countP Failure.isPuts ≤ 1 := by
  unfold failures
  split_ifs <;> decide

/-- The consumer's port fails at most once in a cycle. -/
theorem failures_countP_not_isPuts_le : (failures S p).countP (fun f => !f.isPuts) ≤ 1 := by
  unfold failures
  split_ifs <;> decide

variable {S p}

/-- Outside INIT both ports do not fail in one cycle, since no block is both full and empty. -/
theorem failures_length_le (hN : 1 ≤ N) (hrst : p.rst = false) : (failures S p).length ≤ 1 := by
  rw [failures, hrst]
  cases he : S.empty with
  | true =>
    rw [Block.not_full_of_empty hN he]
    cases p.putEn <;> cases p.getEn <;> decide
  | false => cases p.putEn <;> cases p.getEn <;> cases S.full <;> decide

end failures

/-- One cycle under the word on the ports: both results by the ports and by the flags of the start state. -/
theorem step_results (s : State) :
    ∃ pok got B, step s = .next (s.takeWord.endCycle (decodeWord s.portWord) pok got B) ∧
      pok = putSucceeds s.block (Inputs.ofWord s.portWord) ∧
      got.isSome = getSucceeds s.block (Inputs.ofWord s.portWord) := by
  obtain ⟨pok, got, B, hstep, hpok, hgot⟩ := exec_results (decodeWord s.portWord) s.takeWord
  rw [putByte_decodeWord_isSome] at hpok
  rw [requestsGet_decodeWord] at hgot
  exact ⟨pok, got, B, hstep, hpok, hgot⟩

/-- Settles O47: a failure is a request without its result, and the result is the request with no reason against it. -/
theorem failuresAreTheTwoResults : Obligations.FailuresAreTheTwoResults := by
  rintro s p rfl
  obtain ⟨pok, got, B, hstep, hpok, hgot⟩ := step_results s
  refine ⟨_, _, hstep, rfl, ?_, putFull_mem_failures .., ?_, getEmpty_mem_failures .., putDiscarded_mem_failures ..,
    getDiscarded_mem_failures .., fun hrst => ?_, failures_countP_isPuts_le .., failures_countP_not_isPuts_le ..,
    failures_length_le s.cfg.logCap_pos⟩
  · rw [putFull_mem_failures, State.outputs_putOk, hpok]
    refine and_congr_right fun hen => and_congr_right fun hrst => ?_
    simp [putSucceeds, hen, hrst]
  · rw [getEmpty_mem_failures, State.outputs_getOk, hgot]
    refine and_congr_right fun hen => and_congr_right fun hrst => ?_
    simp [getSucceeds, hen, hrst]
  · rw [State.outputs_putOk, State.outputs_getOk, hpok, hgot]
    simp [putSucceeds, getSucceeds, hrst]

section drivers

variable {α : Type} (l : List (Option α))

/-- The requests made at a port are as many as its drivers. -/
theorem length_filterMap_id : (l.filterMap id).length = l.countP Option.isSome := by
  rw [List.length_filterMap_eq_countP]
  rfl

/-- A port is idle, has one driver, or is contended, by how many requests are made (60_exceptions.md R99). -/
theorem drivePort_eq_error_iff : drivePort l = .error .portContention ↔ 2 ≤ (l.filterMap id).length := by
  rw [drivePort]
  match l.filterMap id with
  | [] | [_] | _ :: _ :: _ => simp

theorem drivePort_eq_some_iff (d : α) : drivePort l = .ok (some d) ↔ l.filterMap id = [d] := by
  rw [drivePort]
  match l.filterMap id with
  | [] | [_] | _ :: _ :: _ => simp

theorem drivePort_eq_none_iff : drivePort l = .ok none ↔ l.filterMap id = [] := by
  rw [drivePort]
  match l.filterMap id with
  | [] | [_] | _ :: _ :: _ => simp

end drivers

/-- A list is one element when that is in it and it has no other. -/
theorem eq_singleton_iff_mem_and_length {α : Type} {l : List α} {a : α} : l = [a] ↔ a ∈ l ∧ l.length = 1 := by
  refine ⟨fun h => by simp [h], fun ⟨hmem, hlen⟩ => ?_⟩
  obtain ⟨b, rfl⟩ := List.length_eq_one_iff.1 hlen
  rw [List.mem_singleton.1 hmem]

/-- Settles O48: the requests made are none, one, or two and more, as many as the drivers. -/
theorem twoDriversOfOnePortAreRefused : Obligations.TwoDriversOfOnePortAreRefused := by
  intro α l
  rw [← length_filterMap_id]
  refine ⟨drivePort_eq_error_iff l, fun d => ?_, ?_⟩
  · rw [drivePort_eq_some_iff, eq_singleton_iff_mem_and_length]
    simp
  · rw [drivePort_eq_none_iff]
    exact List.filterMap_eq_nil_iff

namespace System

/-- Each agent reads its own result of the cycle, and the operations that end are taken off its list. -/
theorem step_of_exec {y : System} {i : Instr} {pok : Bool} {got : Option Byte} {B : Block y.state.cfg.logCap}
    (hcommand : y.ports.command = i) (hexec : exec i y.state = .next (y.state.endCycle i pok got B)) :
    y.step = .next (y.afterCycle (y.state.endCycle i pok got B) pok got.isSome) := by
  rw [step, hcommand, hexec]
  rfl

/-- Several cycles are a first one and the rest. -/
theorem run_succ_of_step {y z : System} (first : y.step = .next z) (k : Nat) : y.run (k + 1) = z.run k := by
  rw [run, first]

theorem run_two_of_steps {y z w : System} (first : y.step = .next z) (second : z.step = .next w) :
    y.run 2 = .next w := by
  rw [run_succ_of_step first, run_succ_of_step second, run]

section waits

variable {s : State} (d : Byte) (ps : List ProducerOp) (cs : List ConsumerOp)

/-- PUTWAIT on a full block while the consumer gets: the put fails and is tried again. -/
theorem step_putWait_of_full_get (hf : s.full = true) :
    step ⟨s, .putWait d :: ps, .get :: cs, []⟩ =
      .next ⟨s.endCycle (.putget d) false (some s.block.front) s.block.advanceGet, .putWait d :: ps, cs, []⟩ := by
  have he : s.empty = false :=
    Block.empty_eq_false_iff_contents.2 (Block.contents_ne_nil_of_full s.cfg.logCap_pos hf)
  exact step_of_exec (agentsRequestsNameTheCommand false true (some d)) (execPutget_of_full d hf he)

/-- PUTWAIT on a full block while the consumer is idle: the put fails and is tried again. -/
theorem step_putWait_of_full (hf : s.full = true) :
    step ⟨s, .putWait d :: ps, [], []⟩ =
      .next ⟨s.endCycle (.put d) false none s.block, .putWait d :: ps, [], []⟩ :=
  step_of_exec (agentsRequestsNameTheCommand false false (some d)) (execPut_of_full d hf)

/-- PUTWAIT ends with the put that finds room. -/
theorem step_putWait_of_room (hf : s.full = false) :
    step ⟨s, .putWait d :: ps, [], []⟩ = .next ⟨s.endCycle (.put d) true none (s.block.store d), ps, [], []⟩ :=
  step_of_exec (agentsRequestsNameTheCommand false false (some d)) (execPut_of_room d hf)

/-- PUTWAIT in an INIT cycle: the put is discarded and is tried again. -/
theorem step_putWait_of_init (s : State) :
    step ⟨s, .putWait d :: ps, [], [true]⟩ =
      .next ⟨s.endCycle .init false none s.block.clear, .putWait d :: ps, [], []⟩ :=
  step_of_exec (agentsRequestsNameTheCommand true false (some d)) (execInit_eq s)

/-- GETWAIT on an empty block while the producer puts: the get fails and is tried again. -/
theorem step_getWait_of_empty_put (he : s.empty = true) :
    step ⟨s, [.put d], .getWait :: cs, []⟩ =
      .next ⟨s.endCycle (.putget d) true none (s.block.store d), [], .getWait :: cs, []⟩ :=
  step_of_exec (agentsRequestsNameTheCommand false true (some d))
    (execPutget_of_empty d (Block.not_full_of_empty s.cfg.logCap_pos he) he)

/-- GETWAIT ends with the get that finds a byte. -/
theorem step_getWait_of_data (he : s.empty = false) :
    step ⟨s, [], .getWait :: cs, []⟩ =
      .next ⟨s.endCycle .get false (some s.block.front) s.block.advanceGet, [], cs, []⟩ :=
  step_of_exec (agentsRequestsNameTheCommand false true none) (execGet_of_data he)

/-- GETWAIT on an empty block while the producer is idle: the get fails and is tried again, in an INIT cycle too, and
the block stays empty. -/
theorem step_getWait_of_empty (he : s.empty = true) (rs : List Bool) :
    ∃ t : State, step ⟨s, [], .getWait :: cs, rs⟩ = .next ⟨t, [], .getWait :: cs, rs.tail⟩ ∧ t.empty = true := by
  match rs with
  | true :: _ =>
    exact ⟨s.endCycle .init false none s.block.clear,
      step_of_exec (agentsRequestsNameTheCommand true true none) (execInit_eq s), s.block.clear_empty⟩
  | false :: _ | [] =>
    exact ⟨s.endCycle .get false none s.block,
      step_of_exec (agentsRequestsNameTheCommand false true none) (execGet_of_empty he), he⟩

/-- A PUTWAIT on a full block never ends while the consumer is idle and there is no INIT. -/
theorem run_putWait_of_full (n : Nat) {s : State} (hf : s.full = true) :
    ∃ t : State, run n ⟨s, .putWait d :: ps, [], []⟩ = .next ⟨t, .putWait d :: ps, [], []⟩ ∧ t.full = true := by
  induction n generalizing s with
  | zero => exact ⟨s, rfl, hf⟩
  | succ n ih =>
    obtain ⟨t, hrun, ht⟩ := ih (s := s.endCycle (.put d) false none s.block) hf
    exact ⟨t, (run_succ_of_step (step_putWait_of_full d ps hf) n).trans hrun, ht⟩

/-- A GETWAIT on an empty block never ends while the producer is idle. -/
theorem run_getWait_of_empty (n : Nat) {s : State} (he : s.empty = true) (rs : List Bool) :
    ∃ (t : State) (rs' : List Bool),
      run n ⟨s, [], .getWait :: cs, rs⟩ = .next ⟨t, [], .getWait :: cs, rs'⟩ ∧ t.empty = true := by
  induction n generalizing s rs with
  | zero => exact ⟨s, rs, rfl, he⟩
  | succ n ih =>
    obtain ⟨u, hstep, hu⟩ := step_getWait_of_empty cs he rs
    obtain ⟨t, rs', hrun, ht⟩ := ih hu rs.tail
    exact ⟨t, rs', (run_succ_of_step hstep n).trans hrun, ht⟩

end waits

end System

/-- Settles O49: the get makes the room that the next try finds. -/
theorem putWaitEndsAfterTheConsumerGets : Obligations.PutWaitEndsAfterTheConsumerGets := by
  rintro ⟨s, producer, consumer, initializer⟩ d ps (hw : s.wf = true) (hf : s.full = true) rfl rfl rfl
  have hN := s.cfg.logCap_pos
  have he : s.block.empty = false := Block.empty_eq_false_iff_contents.2 (Block.contents_ne_nil_of_full hN hf)
  have hroom := Block.advanceGet_full hN he
  have htail : s.block.advanceGet.contents = s.contents.tail := by
    rw [State.contents, s.block.contents_advanceGet hN he, List.tail_cons]
  have hfirst := System.step_putWait_of_full_get d ps [] hf
  refine ⟨⟨_, hfirst, rfl, htail⟩, _,
    System.run_two_of_steps hfirst (System.step_putWait_of_room d ps hroom), rfl, rfl, ?_⟩
  rw [← htail]
  exact Block.contents_store _ hN (s.block.advanceGet_wf hw) hroom d

/-- Settles O50: the put stores the byte that the next try finds. -/
theorem getWaitEndsAfterTheProducerPuts : Obligations.GetWaitEndsAfterTheProducerPuts := by
  rintro ⟨s, producer, consumer, initializer⟩ d cs (hw : s.wf = true) (he : s.empty = true) rfl rfl rfl
  have hN := s.cfg.logCap_pos
  have hroom := Block.not_full_of_empty hN he
  have hheld : (s.block.store d).contents = [d] := by
    rw [Block.contents_store _ hN hw hroom, Block.empty_iff_contents.1 he, List.nil_append]
  have hdata := Block.store_empty hN hroom d
  have hget := Block.contents_advanceGet _ hN hdata
  rw [hheld, List.cons.injEq] at hget
  obtain ⟨hfront, hend⟩ := hget
  have hfirst := System.step_getWait_of_empty_put d cs he
  refine ⟨⟨_, hfirst, rfl, hheld⟩, _,
    System.run_two_of_steps hfirst (System.step_getWait_of_data cs hdata), rfl, rfl, hend.symm, ?_⟩
  show [(s.block.store d).front] = [d]
  rw [← hfront]

/-- Settles O51: a wait's cycle leaves the wait as it was, and after an INIT the producer's next try finds room. -/
theorem waitsAreUnbounded : Obligations.WaitsAreUnbounded := by
  rintro ⟨s, producer, consumer, initializer⟩ d ps cs n (hw : s.wf = true)
  refine ⟨?_, ?_⟩
  · rintro (hf : s.full = true) rfl rfl
    refine ⟨?_, ?_⟩
    · rintro rfl
      obtain ⟨t, hrun, ht⟩ := System.run_putWait_of_full d ps n hf
      exact ⟨_, hrun, rfl, ht⟩
    · rintro rfl
      have hroom := s.block.clear_full s.cfg.logCap_pos
      refine ⟨_, System.run_two_of_steps (System.step_putWait_of_init d ps s)
        (System.step_putWait_of_room d ps hroom), rfl, ?_⟩
      show (s.block.clear.store d).contents = [d]
      rw [Block.contents_store _ s.cfg.logCap_pos (s.block.clear_wf hw) hroom, Block.contents_clear, List.nil_append]
  · rintro (he : s.empty = true) rfl rfl
    obtain ⟨t, rs, hrun, ht⟩ := System.run_getWait_of_empty cs n he initializer
    exact ⟨_, hrun, rfl, ht⟩

end Sys2Proof.Machine
end

section
/-!
The reader of lines on what the writer wrote (30_encoding.md R54, R55): in front it passes over blanks and a label, then
it takes the capitals as the mnemonic, and each mnemonic has its own rest.
-/

namespace Sys2Proof.Machine.Assembly

section characters

variable {c : Char}

theorem isUpper_eq_false_of_isBlank (h : isBlank c = true) : c.isUpper = false := by
  obtain rfl | rfl : c = ' ' ∨ c = Char.ofNat 9 := by simpa [isBlank] using h
  · decide
  · decide

theorem isDigit_eq_false_of_isBlank (h : isBlank c = true) : c.isDigit = false := by
  obtain rfl | rfl : c = ' ' ∨ c = Char.ofNat 9 := by simpa [isBlank] using h
  · decide
  · decide

theorem isDigit_eq_false_of_isUpper (h : c.isUpper = true) : c.isDigit = false := by
  have hA : 'A'.val.toNat = 65 := rfl
  have h9 : '9'.val.toNat = 57 := rfl
  simp only [Char.isUpper, Char.isDigit, decide_eq_true_eq, Bool.and_eq_false_iff, decide_eq_false_iff_not,
    UInt32.le_iff_toNat_le, ge_iff_le] at h ⊢
  omega

/-- What is not blank is not passed over. -/
theorem skipBlanks_cons_of_not_isBlank (h : isBlank c = false) (cs : List Char) : skipBlanks (c :: cs) = c :: cs :=
  List.dropWhile_cons_of_neg (by simp [h])

/-- A line that begins with a capital has neither blanks nor a label in front. -/
theorem skipLabel_skipBlanks_of_isUpper (h : c.isUpper = true) (cs : List Char) :
    skipLabel (skipBlanks (c :: cs)) = c :: cs := by
  have hblank : isBlank c = false := by
    rw [← Bool.not_eq_true]
    exact fun hb => by simp [isUpper_eq_false_of_isBlank hb] at h
  rw [skipBlanks_cons_of_not_isBlank hblank, skipLabel,
    List.takeWhile_cons_of_neg (by simp [isDigit_eq_false_of_isUpper h])]

/-- Blanks, a label and blanks in front of a capital are passed over. -/
theorem skipLabel_skipBlanks_label {front label gap : List Char} (hfront : ∀ c ∈ front, isBlank c = true)
    (hne : label ≠ []) (hlabel : ∀ c ∈ label, c.isDigit = true) (hgap : ∀ c ∈ gap, isBlank c = true)
    (h : c.isUpper = true) (cs : List Char) :
    skipLabel (skipBlanks (front ++ (label ++ ':' :: (gap ++ c :: cs)))) = c :: cs := by
  obtain ⟨e, label, rfl⟩ := List.exists_cons_of_ne_nil hne
  have hdigit : isBlank e = false := by
    rw [← Bool.not_eq_true]
    exact fun hb => by simpa [isDigit_eq_false_of_isBlank hb] using hlabel e List.mem_cons_self
  have hblank : isBlank c = false := by
    rw [← Bool.not_eq_true]
    exact fun hb => by simp [isUpper_eq_false_of_isBlank hb] at h
  rw [skipBlanks_append hfront, List.cons_append, skipBlanks_cons_of_not_isBlank hdigit, ← List.cons_append,
    skipLabel_append hne hlabel, skipBlanks_append hgap, skipBlanks_cons_of_not_isBlank hblank]

end characters

/-- Behind what may stand in front, the line `cs` is the capitals `word` and then `rest`. -/
structure Reads (cs word rest : List Char) : Prop where
  body : skipLabel (skipBlanks cs) = word ++ rest
  capitals : word.all Char.isUpper = true
  behind : rest.takeWhile Char.isUpper = []

section reads

variable {cs rest word : List Char}

theorem Reads.takeWhile (h : Reads cs word rest) : (skipLabel (skipBlanks cs)).takeWhile Char.isUpper = word := by
  rw [h.body, List.takeWhile_append_of_pos (List.all_eq_true.1 h.capitals), h.behind, List.append_nil]

theorem Reads.dropWhile (h : Reads cs word rest) : (skipLabel (skipBlanks cs)).dropWhile Char.isUpper = rest := by
  rw [h.body, List.dropWhile_append_of_pos (List.all_eq_true.1 h.capitals)]
  simpa [h.behind] using List.takeWhile_append_dropWhile (p := Char.isUpper) (l := rest)

/-! One equation for each mnemonic. -/

theorem parseLine_nop (h : Reads cs ['N', 'O', 'P'] rest) : parseLine cs = endLine (.command .nop) rest := by
  simp [parseLine, h.takeWhile, h.dropWhile]

theorem parseLine_get (h : Reads cs ['G', 'E', 'T'] rest) : parseLine cs = endLine (.command .get) rest := by
  simp [parseLine, h.takeWhile, h.dropWhile]

theorem parseLine_put (h : Reads cs ['P', 'U', 'T'] rest) :
    parseLine cs = withByte (fun d => .command (.put d)) rest := by
  simp [parseLine, h.takeWhile, h.dropWhile]

theorem parseLine_putget (h : Reads cs ['P', 'U', 'T', 'G', 'E', 'T'] rest) :
    parseLine cs = withByte (fun d => .command (.putget d)) rest := by
  simp [parseLine, h.takeWhile, h.dropWhile]

theorem parseLine_init (h : Reads cs ['I', 'N', 'I', 'T'] rest) : parseLine cs = endLine (.command .init) rest := by
  simp [parseLine, h.takeWhile, h.dropWhile]

theorem parseLine_size (h : Reads cs ['S', 'I', 'Z', 'E'] rest) : parseLine cs = endLine .size rest := by
  simp [parseLine, h.takeWhile, h.dropWhile]

theorem parseLine_reset (h : Reads cs ['R', 'E', 'S', 'E', 'T'] rest) : parseLine cs = endLine .reset rest := by
  simp [parseLine, h.takeWhile, h.dropWhile]

theorem parseLine_putWait (h : Reads cs ['P', 'U', 'T', 'W', 'A', 'I', 'T'] rest) :
    parseLine cs = withByte .putWait rest := by
  simp [parseLine, h.takeWhile, h.dropWhile]

theorem parseLine_getWait (h : Reads cs ['G', 'E', 'T', 'W', 'A', 'I', 'T'] rest) :
    parseLine cs = endLine .getWait rest := by
  simp [parseLine, h.takeWhile, h.dropWhile]

end reads

/-- What may stand behind a line: it ends any line, and it begins with no capital. -/
structure EndsLine (tail : List Char) : Prop where
  ends : ∀ l, endLine l tail = .ok l
  behind : tail.takeWhile Char.isUpper = []

theorem endsLine_nil : EndsLine [] := ⟨fun _ => rfl, rfl⟩

/-- Blanks and a comment may stand behind a line. -/
theorem endsLine_comment {back : List Char} (h : ∀ c ∈ back, isBlank c = true) (comment : List Char) :
    EndsLine (back ++ ';' :: comment) := by
  refine ⟨fun l => endLine_comment h l comment, ?_⟩
  cases back with
  | nil => exact List.takeWhile_cons_of_neg (by decide)
  | cons c back =>
    exact List.takeWhile_cons_of_neg (by simp [isUpper_eq_false_of_isBlank (h c List.mem_cons_self)])

section operands

variable {f : Byte → Line} {d : Byte} {tail : List Char}

/-- A line with a byte is read when its byte is and nothing else is left. -/
theorem withByte_of_readByte {cs : List Char} (byte : readByte (skipBlanks cs) = some (d, tail))
    (hend : EndsLine tail) : withByte f cs = .ok (f d) := by
  rw [withByte, byte]
  exact hend.ends (f d)

/-- A byte written behind a blank is read. -/
theorem withByte_renderByte (hend : EndsLine tail) : withByte f (' ' :: (renderByte d ++ tail)) = .ok (f d) :=
  withByte_of_readByte (readByte_renderByte d tail) hend

/-- A quoted ASCII character behind a blank is read. -/
theorem withByte_quoted {c : Char} (h : c.toNat < 128) :
    withByte f [' ', quote, c, quote] = .ok (f (BitVec.ofNat 8 c.toNat)) :=
  withByte_of_readByte (readByte_quoted h []) endsLine_nil

end operands

/-- A written line is read back, whatever stands in front of it that is passed over and behind it that ends a line. -/
theorem parseLine_of_body (l : Line) {cs tail : List Char} (hbody : skipLabel (skipBlanks cs) = renderLine l ++ tail)
    (hend : EndsLine tail) : parseLine cs = .ok l := by
  match l with
  | .command .nop => exact (parseLine_nop ⟨hbody, by decide, hend.behind⟩).trans (hend.ends _)
  | .command .get => exact (parseLine_get ⟨hbody, by decide, hend.behind⟩).trans (hend.ends _)
  | .command (.put d) => exact (parseLine_put ⟨hbody, by decide, rfl⟩).trans (withByte_renderByte hend)
  | .command (.putget d) => exact (parseLine_putget ⟨hbody, by decide, rfl⟩).trans (withByte_renderByte hend)
  | .command .init => exact (parseLine_init ⟨hbody, by decide, hend.behind⟩).trans (hend.ends _)
  | .size => exact (parseLine_size ⟨hbody, by decide, hend.behind⟩).trans (hend.ends _)
  | .reset => exact (parseLine_reset ⟨hbody, by decide, hend.behind⟩).trans (hend.ends _)
  | .putWait d => exact (parseLine_putWait ⟨hbody, by decide, rfl⟩).trans (withByte_renderByte hend)
  | .getWait => exact (parseLine_getWait ⟨hbody, by decide, hend.behind⟩).trans (hend.ends _)

/-- Every written line begins with a capital. -/
theorem renderLine_eq_cons (l : Line) : ∃ c cs, renderLine l = c :: cs ∧ c.isUpper = true := by
  match l with
  | .command .nop | .command .get | .command (.put _) | .command (.putget _) | .command .init | .size | .reset
  | .putWait _ | .getWait => exact ⟨_, _, rfl, by decide⟩

/-- Settles O58: a written line begins with a capital, so what stands in front of it is told apart from it, and its
mnemonic names how the rest is read. -/
theorem writtenLinesReadBack : Obligations.WrittenLinesReadBack := by
  refine ⟨fun l => ?_, fun l label front gap back comment hne hlabel hblank => ?_, fun c hc => ⟨?_, ?_, ?_⟩⟩
  · obtain ⟨c, cs, hline, hupper⟩ := renderLine_eq_cons l
    refine parseLine_of_body l (tail := []) ?_ endsLine_nil
    rw [List.append_nil, hline, skipLabel_skipBlanks_of_isUpper hupper]
  · obtain ⟨c, cs, hline, hupper⟩ := renderLine_eq_cons l
    simp only [List.forall_mem_append] at hblank
    obtain ⟨⟨hfront, hgap⟩, hback⟩ := hblank
    refine parseLine_of_body l ?_ (endsLine_comment hback comment)
    rw [hline]
    simpa using skipLabel_skipBlanks_label hfront hne hlabel hgap hupper (cs ++ (back ++ ';' :: comment))
  · exact (parseLine_put ⟨skipLabel_skipBlanks_of_isUpper (by decide) _, by decide, rfl⟩).trans (withByte_quoted hc)
  · exact (parseLine_putget ⟨skipLabel_skipBlanks_of_isUpper (by decide) _, by decide, rfl⟩).trans (withByte_quoted hc)
  · exact (parseLine_putWait ⟨skipLabel_skipBlanks_of_isUpper (by decide) _, by decide, rfl⟩).trans (withByte_quoted hc)

end Sys2Proof.Machine.Assembly
end
